-- ==== Sys2Proof/Word.lean ====
section
/-! DEFINITION. The word types of the machine (spec/00_scope.md R6, R9, R10). -/

namespace Sys2Proof

/-- A byte: a memory cell, a general register, a timer (R6). -/
abbrev Byte := BitVec 8

/-- A 16-bit value: an opcode, the pc, the index register, a stack entry (R6). -/
abbrev Word := BitVec 16

/-- A 4-bit opcode field (R71). -/
abbrev Nibble := BitVec 4

/-- The 12-bit address field `nnn` (R71). -/
abbrev Addr := BitVec 12

/-- The number of a general register, a 4-bit field (R20). -/
abbrev Reg := BitVec 4

/-- VF, the register that doubles as the flag (R21). -/
abbrev regF : Reg := 0xF#4

end Sys2Proof
end

