-- ==== Sys2Proof/Syntax.lean ====
section
/-! DEFINITION. The instructions: one constructor for each row of spec/opcode_table.json (spec/30_encoding.md R76).
A constructor holds the operand letters of its row in R76; bits that R76 marks as ignored are no operands. -/

namespace Sys2Proof

/-- The instruction set (R76). -/
inductive Instr where
  /-- `CLS` (R100). -/
  | cls
  /-- `RET` (R110). -/
  | ret
  /-- `JP nnn` (R111). -/
  | jp (nnn : Addr)
  /-- `CALL nnn` (R112). -/
  | call (nnn : Addr)
  /-- `SE Vx, kk` (R113). -/
  | seImm (x : Reg) (kk : Byte)
  /-- `SNE Vx, kk` (R114). -/
  | sneImm (x : Reg) (kk : Byte)
  /-- `SE Vx, Vy` (R115). -/
  | seReg (x y : Reg)
  /-- `LD Vx, kk` (R132). -/
  | ldImm (x : Reg) (kk : Byte)
  /-- `ADD Vx, kk` (R133). -/
  | addImm (x : Reg) (kk : Byte)
  /-- `LD Vx, Vy` (R134). -/
  | ldReg (x y : Reg)
  /-- `OR Vx, Vy` (R135). -/
  | orReg (x y : Reg)
  /-- `AND Vx, Vy` (R136). -/
  | andReg (x y : Reg)
  /-- `XOR Vx, Vy` (R137). -/
  | xorReg (x y : Reg)
  /-- `ADD Vx, Vy` (R138). -/
  | addReg (x y : Reg)
  /-- `SUB Vx, Vy` (R139). -/
  | sub (x y : Reg)
  /-- `SHR Vx`; the `y` field is ignored (R140). -/
  | shr (x : Reg)
  /-- `SUBN Vx, Vy` (R141). -/
  | subn (x y : Reg)
  /-- `SHL Vx`; the `y` field is ignored (R142). -/
  | shl (x : Reg)
  /-- `SNE Vx, Vy` (R116). -/
  | sneReg (x y : Reg)
  /-- `LD I, nnn` (R150). -/
  | ldI (nnn : Addr)
  /-- `JP V0, nnn` (R117). -/
  | jpV0 (nnn : Addr)
  /-- `RND Vx, kk` (R143). -/
  | rnd (x : Reg) (kk : Byte)
  /-- `DRW Vx, Vy, n` (R101). -/
  | drw (x y : Reg) (n : Nibble)
  /-- `SKP Vx` (R170). -/
  | skp (x : Reg)
  /-- `SKNP Vx` (R171). -/
  | sknp (x : Reg)
  /-- `LD Vx, DT` (R172). -/
  | ldVxDt (x : Reg)
  /-- `LD Vx, K` (R173). -/
  | ldVxK (x : Reg)
  /-- `LD DT, Vx` (R174). -/
  | ldDtVx (x : Reg)
  /-- `LD ST, Vx` (R175). -/
  | ldStVx (x : Reg)
  /-- `ADD I, Vx` (R151). -/
  | addIVx (x : Reg)
  /-- `LD F, Vx` (R152). -/
  | ldFVx (x : Reg)
  /-- `LD B, Vx` (R153). -/
  | ldBVx (x : Reg)
  /-- `LD [I], Vx` (R154). -/
  | ldMemVx (x : Reg)
  /-- `LD Vx, [I]` (R155). -/
  | ldVxMem (x : Reg)
  /-- `SYS nnn`, a no-op: group 0 with an unclaimed selector (R97). -/
  | sysNop (nnn : Addr)
  /-- A group-8 word with the unclaimed selector `n`, a no-op (R97). -/
  | nop8 (n : Nibble)
  /-- A group-E word with the unclaimed selector `n`, a no-op (R97). -/
  | nopE (n : Nibble)
  /-- A group-F word with the unclaimed selector `kk`, a no-op (R97). -/
  | nopF (kk : Byte)
  deriving DecidableEq, Repr

end Sys2Proof
end

