-- ==== Sys2Proof/WellFormed.lean ====
section
/-! DEFINITION. Which terms of Instr are instructions. Every operand of a claimed row may take every value of its field;
only the no-op rows are limited: their selector is one that no instruction claims (spec/40_cycle.md R97). -/

namespace Sys2Proof

/-- The selectors of group 0 that an instruction claims: CLS and RET (R97). -/
def claimed0 : List Nibble := [0x0#4, 0xE#4]

/-- The selectors of group 8 that an instruction claims (R97). -/
def claimed8 : List Nibble := [0x0#4, 0x1#4, 0x2#4, 0x3#4, 0x4#4, 0x5#4, 0x6#4, 0x7#4, 0xE#4]

/-- The selectors of group E that an instruction claims: SKNP and SKP (R97). -/
def claimedE : List Nibble := [0x1#4, 0xE#4]

/-- The selectors of group F that an instruction claims (R97). -/
def claimedF : List Byte := [0x07#8, 0x0A#8, 0x15#8, 0x18#8, 0x1E#8, 0x29#8, 0x33#8, 0x55#8, 0x65#8]

/-- The check: the selector of a no-op word is unclaimed (R97). -/
def Instr.wellFormed : Instr → Bool
  | .sysNop nnn => !claimed0.contains (nnn.extractLsb' 0 4)
  | .nop8 n => !claimed8.contains n
  | .nopE n => !claimedE.contains n
  | .nopF kk => !claimedF.contains kk
  | .cls | .ret => true
  | .jp _ | .call _ | .ldI _ | .jpV0 _ => true
  | .seImm _ _ | .sneImm _ _ | .ldImm _ _ | .addImm _ _ | .rnd _ _ => true
  | .seReg _ _ | .sneReg _ _ | .ldReg _ _ | .orReg _ _ | .andReg _ _ | .xorReg _ _ => true
  | .addReg _ _ | .sub _ _ | .subn _ _ | .shr _ | .shl _ => true
  | .drw _ _ _ => true
  | .skp _ | .sknp _ | .ldVxDt _ | .ldVxK _ | .ldDtVx _ | .ldStVx _ => true
  | .addIVx _ | .ldFVx _ | .ldBVx _ | .ldMemVx _ | .ldVxMem _ => true

/-- An instruction is well formed when the check accepts it. -/
abbrev Instr.WellFormed (i : Instr) : Prop := i.wellFormed = true

end Sys2Proof
end

