-- ==== Sys2Proof/Decode.lean ====
section
/-! DEFINITION. From words to instructions and back (spec/30_encoding.md): the fields (R71), the two-level dispatch
(R73, R74, R77), decoding of bytes (R70, R56), and the encoder (R72, R76). -/

namespace Sys2Proof

/-! ### The fields of an opcode (R71) -/

/-- The group `g = op[15:12]`. -/
def opG (w : Word) : Nibble := w.extractLsb' 12 4
/-- The register field `x = op[11:8]`. -/
def opX (w : Word) : Reg := w.extractLsb' 8 4
/-- The register field `y = op[7:4]`. -/
def opY (w : Word) : Reg := w.extractLsb' 4 4
/-- The nibble `n = op[3:0]`. -/
def opN (w : Word) : Nibble := w.extractLsb' 0 4
/-- The immediate byte `kk = op[7:0]`. -/
def opKK (w : Word) : Byte := w.extractLsb' 0 8
/-- The address `nnn = op[11:0]`. -/
def opNNN (w : Word) : Addr := w.extractLsb' 0 12

/-! ### Dispatch (R77) -/

/-- Group 0x0: the selector is the low nibble, the other bits take no part (R74). -/
def decode0 (w : Word) : Instr :=
  match opN w with
  | 0x0#4 => .cls
  | 0xE#4 => .ret
  | _ => .sysNop (opNNN w)

/-- Group 0x8: the selector is the low nibble (R74). -/
def decode8 (w : Word) : Instr :=
  match opN w with
  | 0x0#4 => .ldReg (opX w) (opY w)
  | 0x1#4 => .orReg (opX w) (opY w)
  | 0x2#4 => .andReg (opX w) (opY w)
  | 0x3#4 => .xorReg (opX w) (opY w)
  | 0x4#4 => .addReg (opX w) (opY w)
  | 0x5#4 => .sub (opX w) (opY w)
  | 0x6#4 => .shr (opX w)
  | 0x7#4 => .subn (opX w) (opY w)
  | 0xE#4 => .shl (opX w)
  | n => .nop8 n

/-- Group 0xE: the selector is the low nibble; bits 7:4 take no part (R74, R75). -/
def decodeE (w : Word) : Instr :=
  match opN w with
  | 0xE#4 => .skp (opX w)
  | 0x1#4 => .sknp (opX w)
  | n => .nopE n

/-- Group 0xF: the selector is the low byte (R74). -/
def decodeF (w : Word) : Instr :=
  match opKK w with
  | 0x07#8 => .ldVxDt (opX w)
  | 0x0A#8 => .ldVxK (opX w)
  | 0x15#8 => .ldDtVx (opX w)
  | 0x18#8 => .ldStVx (opX w)
  | 0x1E#8 => .addIVx (opX w)
  | 0x29#8 => .ldFVx (opX w)
  | 0x33#8 => .ldBVx (opX w)
  | 0x55#8 => .ldMemVx (opX w)
  | 0x65#8 => .ldVxMem (opX w)
  | kk => .nopF kk

/-- The decode function, total over all words (R77, R93). The last arm is group 0xF, the only group left. -/
def decode (w : Word) : Instr :=
  match opG w with
  | 0x0#4 => decode0 w
  | 0x1#4 => .jp (opNNN w)
  | 0x2#4 => .call (opNNN w)
  | 0x3#4 => .seImm (opX w) (opKK w)
  | 0x4#4 => .sneImm (opX w) (opKK w)
  | 0x5#4 => .seReg (opX w) (opY w)
  | 0x6#4 => .ldImm (opX w) (opKK w)
  | 0x7#4 => .addImm (opX w) (opKK w)
  | 0x8#4 => decode8 w
  | 0x9#4 => .sneReg (opX w) (opY w)
  | 0xA#4 => .ldI (opNNN w)
  | 0xB#4 => .jpV0 (opNNN w)
  | 0xC#4 => .rnd (opX w) (opKK w)
  | 0xD#4 => .drw (opX w) (opY w) (opN w)
  | 0xE#4 => decodeE w
  | _ => decodeF w

/-- Why a list of bytes holds no instruction: the only reason is that fewer than two bytes are there, since no word is
illegal (R70, R78). -/
inductive DecodeError where
  | truncated
  deriving DecidableEq, Repr

/-- Two bytes as the word they store, high byte first (R56). -/
def joinBytes (hi lo : Byte) : Word := hi ++ lo

/-- Decoding of bytes at increasing addresses: two bytes make an instruction, the rest is handed back (R70). -/
def decodeBytes : List Byte → Except DecodeError (Instr × List Byte)
  | hi :: lo :: rest => .ok (decode (joinBytes hi lo), rest)
  | [_] => .error .truncated
  | [] => .error .truncated

/-! ### The encoder (R72, R76) -/

/-- Format `G-nnn` (R72). -/
def wordNNN (g : Nibble) (nnn : Addr) : Word := g ++ nnn
/-- Formats `G-x-kk` and `G-x-sel` (R72). -/
def wordXKK (g : Nibble) (x : Reg) (kk : Byte) : Word := g ++ x ++ kk
/-- Format `G-x-y-n` (R72). -/
def wordXYN (g : Nibble) (x y : Reg) (n : Nibble) : Word := g ++ x ++ y ++ n

/-- The word of an instruction (R76). Bits that R76 marks as ignored are those of the standard word where the table
names one (00E0, 00EE, Ex9E, ExA1), and 0 otherwise. -/
def encode : Instr → Word
  | .cls => 0x00E0#16
  | .ret => 0x00EE#16
  | .sysNop nnn => wordNNN 0x0#4 nnn
  | .jp nnn => wordNNN 0x1#4 nnn
  | .call nnn => wordNNN 0x2#4 nnn
  | .seImm x kk => wordXKK 0x3#4 x kk
  | .sneImm x kk => wordXKK 0x4#4 x kk
  | .seReg x y => wordXYN 0x5#4 x y 0x0#4
  | .ldImm x kk => wordXKK 0x6#4 x kk
  | .addImm x kk => wordXKK 0x7#4 x kk
  | .ldReg x y => wordXYN 0x8#4 x y 0x0#4
  | .orReg x y => wordXYN 0x8#4 x y 0x1#4
  | .andReg x y => wordXYN 0x8#4 x y 0x2#4
  | .xorReg x y => wordXYN 0x8#4 x y 0x3#4
  | .addReg x y => wordXYN 0x8#4 x y 0x4#4
  | .sub x y => wordXYN 0x8#4 x y 0x5#4
  | .shr x => wordXYN 0x8#4 x 0x0#4 0x6#4
  | .subn x y => wordXYN 0x8#4 x y 0x7#4
  | .shl x => wordXYN 0x8#4 x 0x0#4 0xE#4
  | .nop8 n => wordXYN 0x8#4 0x0#4 0x0#4 n
  | .sneReg x y => wordXYN 0x9#4 x y 0x0#4
  | .ldI nnn => wordNNN 0xA#4 nnn
  | .jpV0 nnn => wordNNN 0xB#4 nnn
  | .rnd x kk => wordXKK 0xC#4 x kk
  | .drw x y n => wordXYN 0xD#4 x y n
  | .skp x => wordXKK 0xE#4 x 0x9E#8
  | .sknp x => wordXKK 0xE#4 x 0xA1#8
  | .nopE n => wordXYN 0xE#4 0x0#4 0x0#4 n
  | .ldVxDt x => wordXKK 0xF#4 x 0x07#8
  | .ldVxK x => wordXKK 0xF#4 x 0x0A#8
  | .ldDtVx x => wordXKK 0xF#4 x 0x15#8
  | .ldStVx x => wordXKK 0xF#4 x 0x18#8
  | .addIVx x => wordXKK 0xF#4 x 0x1E#8
  | .ldFVx x => wordXKK 0xF#4 x 0x29#8
  | .ldBVx x => wordXKK 0xF#4 x 0x33#8
  | .ldMemVx x => wordXKK 0xF#4 x 0x55#8
  | .ldVxMem x => wordXKK 0xF#4 x 0x65#8
  | .nopF kk => wordXKK 0xF#4 0x0#4 kk

/-- The bits of its word that an instruction's row in R76 does not mark as ignored. -/
def Instr.usedBits : Instr → Word
  | .cls | .ret => 0xF00F#16
  | .sysNop _ | .jp _ | .call _ | .ldI _ | .jpV0 _ => 0xFFFF#16
  | .seImm _ _ | .sneImm _ _ | .ldImm _ _ | .addImm _ _ | .rnd _ _ => 0xFFFF#16
  | .seReg _ _ | .sneReg _ _ => 0xFFF0#16
  | .ldReg _ _ | .orReg _ _ | .andReg _ _ | .xorReg _ _ => 0xFFFF#16
  | .addReg _ _ | .sub _ _ | .subn _ _ | .drw _ _ _ => 0xFFFF#16
  | .shr _ | .shl _ | .skp _ | .sknp _ => 0xFF0F#16
  | .nop8 _ | .nopE _ => 0xF00F#16
  | .ldVxDt _ | .ldVxK _ | .ldDtVx _ | .ldStVx _ | .addIVx _ => 0xFFFF#16
  | .ldFVx _ | .ldBVx _ | .ldMemVx _ | .ldVxMem _ => 0xFFFF#16
  | .nopF _ => 0xF0FF#16

/-! ### The host's reading of a table word -/

/-- The bytes, at increasing addresses, of a table word given as a number: its bits above `nbits` are 0, its high byte
comes first (R56, R70). -/
def tableBytes (nbits w : Nat) : Byte × Byte :=
  let op : Word := BitVec.ofNat 16 (w % 2 ^ nbits)
  (op.extractLsb' 8 8, op.extractLsb' 0 8)

/-- The instruction the decoder reads from a word of the opcode table. -/
def decodeTableWord (nbits w : Nat) : Option Instr :=
  match decodeBytes [(tableBytes nbits w).1, (tableBytes nbits w).2] with
  | .ok (i, _) => some i
  | .error _ => none

end Sys2Proof
end

