-- ==== Sys2Proof/Config.lean ====
section
/-! DEFINITION. The parameters of the implementation (spec/00_scope.md R6) and the free values of the machine:
the two draws of a cycle (spec/40_cycle.md R99). The glyph table FONT is `Config.font` in Machine/Memory.lean. -/

namespace Sys2Proof

/-- The highest memory address; MEM_SIZE is 4096 (R6, R50). -/
abbrev Config.memTop : Nat := 0xFFF

/-- GLYPH_BASE: where the glyph table begins (R6, R51). -/
abbrev Config.glyphBase : Nat := 0x050

/-- PROG_BASE: where `load` copies to, and the reset pc (R6, R64, R231). -/
abbrev Config.progBase : Nat := 0x200

/-- PROG_MAX: the longest image `load` accepts, in bytes (R6, R64). -/
abbrev Config.progMax : Nat := 0xE00

/-- The keypad snapshot the host supplies to the cycle of the given number, where the state lists none: a free value
under no law (R99, D25). DESIGN CHOICE of the form, log 1. Safe: nothing can be proved of its value. -/
opaque Config.keypadDraw : Nat → Vector Bool 16

/-- The random byte the host supplies to the cycle of the given number, where the state lists none: a free value under
no law (R99, R143, D20). DESIGN CHOICE of the form, log 1. Safe: nothing can be proved of its value. -/
opaque Config.randomDraw : Nat → Byte

end Sys2Proof
end

