-- ==== Sys2Proof/Machine/State.lean ====
section
/-! DEFINITION. The state of the core (spec/10_state.md), the reasons a step can stop, and the state after reset
(spec/70_reset_and_hazards.md R230). -/

namespace Sys2Proof.Machine

/-- Memory: the cells that differ from their reset contents, by strictly rising address. An unlisted address reads as
`Memory.blank` says (Machine/Memory.lean). -/
abbrev Memory := List Host.Cell

/-- The framebuffer, 32 rows of 64 pixels, row by row (R29); `true` is a pixel that is on (D27). -/
abbrev Framebuffer := Vector (Vector Bool 64) 32

/-- A fault cause with the info that R200 lists for it. Its code and its info as a number are `Cause.code` and `Cause.info`
(Machine/Ops.lean). -/
inductive Cause where
  /-- CALL with `SP = 16`. -/
  | stackOverflow
  /-- RET with `SP = 0`. -/
  | stackUnderflow
  /-- LD F,Vx with a register value above 15. -/
  | invalidDigit (value : Byte)
  /-- An access above 0xFFF: the first such address, an unbounded integer. -/
  | memoryOutOfBounds (addr : Nat)
  /-- SKP or SKNP with a register value above 15. -/
  | keyIndexOutOfRange (value : Byte)
  deriving DecidableEq, Repr

/-- The fault record `some(cause, info, fpc, fop)` of R32 and R201; the info is in the cause. -/
structure FaultRecord where
  cause : Cause
  /-- The pc at the start of the faulting cycle. -/
  fpc   : Word
  /-- The fetched opcode, or `none` when the fetch itself faulted. -/
  fop   : Option Word
  deriving DecidableEq, Repr

/-- What the host supplies to one cycle (R99): the keypad snapshot `K_in` and the random byte `r`. -/
structure HostInput where
  keys : Vector Bool 16
  rand : Byte
  deriving DecidableEq, Repr

/-- The state of the machine. The first twelve fields are the spec's (10_state.md section 1); the last three are the
model's own (log 1, log 3) and no instruction reads or writes them. -/
structure State where
  /-- V[0]..V[15] (R20). -/
  v        : Vector Byte 16
  /-- The index register I (R25). -/
  i        : Word
  /-- The program counter (R23). -/
  pc       : Word
  /-- The return stack S[0]..S[15] (R26). -/
  stack    : Vector Word 16
  /-- The stack pointer, 0..16 (R26, R27). -/
  sp       : Fin 17
  /-- The delay timer (R28). -/
  dt       : Byte
  /-- The sound timer (R28). -/
  st       : Byte
  /-- Memory (R50). -/
  mem      : Memory
  /-- The framebuffer (R29). -/
  fb       : Framebuffer
  /-- The keypad snapshot K[0]..K[15]; `true` is pressed (R30). -/
  keys     : Vector Bool 16
  /-- The current opcode; `none` outside a cycle, where it holds no value (R31, log 2). -/
  op       : Option Word
  /-- The fault state (R32). -/
  fault    : Option FaultRecord
  /-- Model's own: the inputs already settled for the coming cycles, the next one first (log 1). -/
  pending  : List HostInput
  /-- Model's own: the number of cycles so far, which picks the free draws (log 1). -/
  draws    : Nat
  /-- Model's own: whether the one `load` may still come (R64, D19, log 3). -/
  loadOpen : Bool
  deriving DecidableEq, Repr

/-- Why a step stops. -/
inductive Fault where
  /-- Raised by `step` alone, in a state whose `fault` is set: the core is halted, the cycle changes nothing and returns
  the recorded fault (R98, R202). Safe: the spec gives such a cycle no other effect. -/
  | halted (r : FaultRecord)
  deriving DecidableEq, Repr

/-- Why a request has no meaning. -/
inductive Refusal where
  /-- An instruction that has no meaning yet; raised by no arm of `exec` (all are modelled). Safe. -/
  | notModelled (mnemonic : String)
  /-- Raised by `State.load` alone: a `load` that is not the first after reset, or that comes after a cycle (R64, D19).
  Safe: the spec gives it no meaning. -/
  | lateLoad
  deriving DecidableEq, Repr

/-- The machine right after reset (R230, R231). `op` holds no value (10_state.md section 1). The last three fields are
the model's own: DESIGN CHOICE, log 1 and log 3. -/
def State.reset : State where
  v := Vector.replicate 16 0#8
  i := 0#16
  pc := BitVec.ofNat 16 Config.progBase
  stack := Vector.replicate 16 0#16
  sp := 0
  dt := 0#8
  st := 0#8
  mem := []
  fb := Vector.replicate 32 (Vector.replicate 64 false)
  keys := Vector.replicate 16 false
  op := none
  fault := none
  pending := []
  draws := 0
  loadOpen := true

end Sys2Proof.Machine
end

