-- ==== Sys2Proof/Machine/Memory.lean ====
section
/-! DEFINITION. Memory as a canonical list of cells (spec/20_memory.md): the reset contents with the glyph table
(R51, R52), reading and writing one byte, and the canonical form. -/

namespace Sys2Proof

/-- FONT, the 80 bytes of the glyph table, digit by digit, top row first (R52). The spec gives these bytes from general
knowledge and makes them a parameter (D24). PRESUMED, log 4; unsafe where the repository's font differs. -/
def Config.font : List Byte :=
  [0xF0#8, 0x90#8, 0x90#8, 0x90#8, 0xF0#8] ++ [0x20#8, 0x60#8, 0x20#8, 0x20#8, 0x70#8] ++
  [0xF0#8, 0x10#8, 0xF0#8, 0x80#8, 0xF0#8] ++ [0xF0#8, 0x10#8, 0xF0#8, 0x10#8, 0xF0#8] ++
  [0x90#8, 0x90#8, 0xF0#8, 0x10#8, 0x10#8] ++ [0xF0#8, 0x80#8, 0xF0#8, 0x10#8, 0xF0#8] ++
  [0xF0#8, 0x80#8, 0xF0#8, 0x90#8, 0xF0#8] ++ [0xF0#8, 0x10#8, 0x20#8, 0x40#8, 0x40#8] ++
  [0xF0#8, 0x90#8, 0xF0#8, 0x90#8, 0xF0#8] ++ [0xF0#8, 0x90#8, 0xF0#8, 0x10#8, 0xF0#8] ++
  [0xF0#8, 0x90#8, 0xF0#8, 0x90#8, 0x90#8] ++ [0xE0#8, 0x90#8, 0xE0#8, 0x90#8, 0xE0#8] ++
  [0xF0#8, 0x80#8, 0x80#8, 0x80#8, 0xF0#8] ++ [0xE0#8, 0x90#8, 0x90#8, 0x90#8, 0xE0#8] ++
  [0xF0#8, 0x80#8, 0xF0#8, 0x80#8, 0xF0#8] ++ [0xF0#8, 0x80#8, 0xF0#8, 0x80#8, 0x80#8]

namespace Machine

/-- What an address reads as before anything is written to it: the reset contents, the glyph table at 0x050..0x09F and
0 elsewhere (R51, R230). -/
def Memory.blank (a : Nat) : Byte :=
  if Config.glyphBase ≤ a then (Config.font[a - Config.glyphBase]?).getD 0#8 else 0#8

/-- The byte at an address: the listed one, else the reset contents. The bounds check is `State.memRead`'s. -/
def Memory.read : Memory → Nat → Byte
  | [], a => Memory.blank a
  | (b, w) :: m, a => if b = a then w else Memory.read m a

/-- Memory without a cell at an address. -/
def Memory.drop (m : Memory) (a : Nat) : Memory := m.filter fun c => c.1 != a

/-- Memory with a cell put in its place in the rising order. -/
def Memory.insert : Memory → Nat → Byte → Memory
  | [], a, w => [(a, w)]
  | c :: m, a, w => if a < c.1 then (a, w) :: c :: m else c :: Memory.insert m a w

/-- Write one byte, keeping the canonical form: a byte equal to the reset contents is not listed. The bounds check is
`State.memWrite`'s. -/
def Memory.write (m : Memory) (a : Nat) (w : Byte) : Memory :=
  if w = Memory.blank a then m.drop a else (m.drop a).insert a w

/-- The canonical form: addresses strictly rise, lie in 0x000..0xFFF, and no listed byte equals the reset contents. -/
abbrev Memory.wf (m : Memory) : Prop :=
  m.Pairwise (fun c d => c.1 < d.1) ∧ ∀ c ∈ m, c.2 ≠ Memory.blank c.1 ∧ c.1 ≤ Config.memTop

end Machine

end Sys2Proof
end

