-- ==== Sys2Proof/Machine/Ops.lean ====
section
/-! DEFINITION. The operations over registers, memory, stack, pc, framebuffer and timers that the instructions share; the
cycle around an instruction (spec/40_cycle.md R90); taking a fault (R96, spec/60_exceptions.md R201); the fetch (R91); and
the host operations `load` and reset (spec/20_memory.md R64, spec/70_reset_and_hazards.md R230).

There is no return from a fault: no handler runs and no instruction returns from one (R205). -/

namespace Sys2Proof.Machine

/-- What a meaning and a step answer. -/
abbrev Result := Host.Outcome State Fault Refusal

/-! ### The fault record as the host reads it (R200, R32) -/

/-- The code of a cause, in the spec's numbering (R200; D10, log 7). -/
def Cause.code : Cause → Nat
  | .stackOverflow => 1
  | .stackUnderflow => 2
  | .invalidDigit _ => 3
  | .memoryOutOfBounds _ => 4
  | .keyIndexOutOfRange _ => 5

/-- The info recorded with a cause: nothing, a register's value, or the first address above 0xFFF (R200; D10, log 7). -/
def Cause.info : Cause → Option Nat
  | .stackOverflow => none
  | .stackUnderflow => none
  | .invalidDigit value => some value.toNat
  | .memoryOutOfBounds addr => some addr
  | .keyIndexOutOfRange value => some value.toNat

/-- The cause code of a record. -/
def FaultRecord.code (r : FaultRecord) : Nat := r.cause.code

/-- The info of a record. -/
def FaultRecord.info (r : FaultRecord) : Option Nat := r.cause.info

/-! ### General registers (R20) -/

/-- `V[x]`. -/
def State.getV (s : State) (x : Reg) : Byte := s.v[x.toNat]

/-- `V[x] <- b`. No register is hardwired (R20). -/
def State.setV (s : State) (x : Reg) (b : Byte) : State := { s with v := s.v.set x.toNat b }

/-- `V[k] <- bs[k]` for every `k` below the length of `bs` (R155). -/
def State.setVs (s : State) (bs : List Byte) : State :=
  { s with v := Vector.ofFn fun k => (bs[k.val]?).getD s.v[k] }

/-- `V[x] <- result`, then `VF <- flag`: with `x = 0xF` the flag stays (R131). -/
def State.setVFlag (s : State) (x : Reg) (result flag : Byte) : State := (s.setV x result).setV regF flag

/-! ### Program counter -/

/-- `pc <- target`. -/
def State.jump (s : State) (target : Word) : State := { s with pc := target }

/-- A skip: 2 more on the advanced pc where the condition holds (R118); `u16` of R24 is the wrap of the word. -/
def State.skipIf (s : State) (c : Bool) : State := s.jump (if c then s.pc + 2#16 else s.pc)

/-! ### Index register and timers -/

/-- `I <- w`. -/
def State.setI (s : State) (w : Word) : State := { s with i := w }

/-- `DT <- b`. -/
def State.setDT (s : State) (b : Byte) : State := { s with dt := b }

/-- `ST <- b`. -/
def State.setST (s : State) (b : Byte) : State := { s with st := b }

/-- One timer's tick: 1 less while it is above 0 (R95). -/
def tickTimer (t : Byte) : Byte := if t = 0#8 then 0#8 else t - 1#8

/-! ### Stack (R26) -/

/-- Push: `S[SP] <- w`, then `SP + 1`; `StackOverflow` with `SP = 16` (R112, R27). -/
def State.push (s : State) (w : Word) : Except Cause State :=
  if h : s.sp.val < 16 then
    .ok { s with stack := s.stack.set s.sp.val w, sp := ⟨s.sp.val + 1, by omega⟩ }
  else .error .stackOverflow

/-- Pop: `SP - 1`, then `S[SP]`, with the entry kept in place; `StackUnderflow` with `SP = 0` (R110, R26, R27). -/
def State.pop (s : State) : Except Cause (Word × State) :=
  if h : 0 < s.sp.val then
    .ok (s.stack[s.sp.val - 1]'(by omega), { s with sp := ⟨s.sp.val - 1, by omega⟩ })
  else .error .stackUnderflow

/-! ### Memory (R54, R55); addresses are unbounded integers -/

/-- `MemRead(a, 1)` (R54). -/
def State.memRead (s : State) (a : Nat) : Except Cause Byte :=
  if a ≤ Config.memTop then .ok (s.mem.read a) else .error (.memoryOutOfBounds a)

/-- `MemWrite(a, 1, b)` (R55). -/
def State.memWrite (s : State) (a : Nat) (b : Byte) : Except Cause State :=
  if a ≤ Config.memTop then .ok { s with mem := s.mem.write a b } else .error (.memoryOutOfBounds a)

/-- `n` bytes from `a` on, in ascending order (R58). -/
def State.loadBytes (s : State) (a : Nat) : Nat → Except Cause (List Byte)
  | 0 => .ok []
  | n + 1 => do
    let b ← s.memRead a
    let bs ← s.loadBytes (a + 1) n
    .ok (b :: bs)

/-- Write bytes from `a` on, in ascending order (R58). -/
def State.storeBytes (s : State) (a : Nat) : List Byte → Except Cause State
  | [] => .ok s
  | b :: bs => do
    let t ← s.memWrite a b
    t.storeBytes (a + 1) bs

/-! ### Framebuffer (R29) -/

/-- `FB(px, py)`; outside the grid there is no pixel and the answer is `false`. -/
def Framebuffer.get (f : Framebuffer) (px py : Nat) : Bool :=
  if h : px < 64 ∧ py < 32 then (f[py]'h.2)[px]'h.1 else false

/-- `FB(px, py) <- b`; outside the grid nothing is written. -/
def Framebuffer.put (f : Framebuffer) (px py : Nat) (b : Bool) : Framebuffer :=
  if h : px < 64 ∧ py < 32 then f.set py ((f[py]'h.2).set px b h.1) h.2 else f

/-- Every pixel off (R100). -/
def Framebuffer.clear : Framebuffer := Vector.replicate 32 (Vector.replicate 64 false)

/-- A framebuffer while a sprite is drawn on it, with the collision seen so far (`hit` of R101). -/
structure Canvas where
  fb  : Framebuffer
  hit : Bool
  deriving DecidableEq, Repr

/-- Draw one set sprite bit at a position: clipped outside the grid (R102), else the pixel is flipped, and a pixel that
was on is a collision (R103). -/
def Canvas.plot (c : Canvas) (px py : Nat) : Canvas :=
  if px ≤ 63 ∧ py ≤ 31 then
    { fb := c.fb.put px py (!c.fb.get px py), hit := c.hit || c.fb.get px py }
  else c

/-- Draw the columns of a sprite byte that are listed; bit 7 is the leftmost column (R104). -/
def Canvas.plotColumns (c : Canvas) (ox py : Nat) (b : Byte) : List Nat → Canvas
  | [] => c
  | k :: ks => (if b.getLsbD (7 - k) then c.plot (ox + k) py else c).plotColumns ox py b ks

/-- Draw the eight columns of a sprite byte on a row (R101). -/
def Canvas.plotRow (c : Canvas) (ox py : Nat) (b : Byte) : Canvas :=
  c.plotColumns ox py b [0, 1, 2, 3, 4, 5, 6, 7]

/-- Draw sprite bytes on successive rows from `oy` down (R101). -/
def Canvas.plotRows (c : Canvas) (ox oy : Nat) : List Byte → Canvas
  | [] => c
  | b :: bs => (c.plotRow ox oy b).plotRows ox (oy + 1) bs

/-! ### The host's inputs (R99) -/

/-- The inputs of the coming cycle: the first pending one, else the two free draws (log 1). -/
def State.hostInput (s : State) : HostInput :=
  match s.pending with
  | inp :: _ => inp
  | [] => { keys := Config.keypadDraw s.draws, rand := Config.randomDraw s.draws }

/-- A cycle has used its inputs; from now on `load` has no meaning (R64, log 1, log 3). -/
def State.usedInput (s : State) : State :=
  { s with pending := s.pending.tail, draws := s.draws + 1, loadOpen := false }

/-! ### The cycle (R90) -/

/-- The start of a cycle: `K <- K_in` (R99) and the advance of the pc (R92). -/
def State.beginCycle (s : State) : State := { s with keys := s.hostInput.keys, pc := s.pc + 2#16 }

/-- The end of a cycle that did not fault: the tick (R95); the opcode holds no value any more (R31). -/
def State.endCycle (s : State) : State :=
  State.usedInput { s with dt := tickTimer s.dt, st := tickTimer s.st, op := none }

/-- TAKING A FAULT, in the state from before the cycle: no write of the cycle is kept, no tick; `fault` records the cause,
the pc and the opcode, which is none when the fetch faulted (R96, R201). -/
def State.takeFault (s : State) (c : Cause) : State :=
  State.usedInput { s with fault := some { cause := c, fpc := s.pc, fop := s.op }, op := none }

/-- A fault of the fetch itself: there is no opcode to record (R91, R201). -/
def State.takeFetchFault (s : State) (c : Cause) : State := State.takeFault { s with op := none } c

/-- The cycle around the execute step of an instruction, after the fetch: inputs, advance, execute, tick; or the fault
(R90). `s` is the state before the cycle, with the fetched opcode in `op`. -/
def State.cycle (s : State) (execute : State → Except Cause State) : Result :=
  match execute s.beginCycle with
  | .ok t => .next t.endCycle
  | .error c => .next (s.takeFault c)

/-- The fetch: the byte at `pc` is the high byte, the byte at `pc + 1` the low one; `pc + 1` does not wrap (R91, R56). -/
def State.fetch (s : State) : Except Cause Word := do
  let hi ← s.memRead s.pc.toNat
  let lo ← s.memRead (s.pc.toNat + 1)
  .ok (joinBytes hi lo)

/-- The fetched opcode is latched in `op` (R31, R63). -/
def State.latch (s : State) (w : Word) : State := { s with op := some w }

/-! ### Host operations -/

/-- What `load` reports (R64). -/
inductive LoadReport where
  | ok
  | programTooLarge
  deriving DecidableEq, Repr

/-- Memory with bytes copied to it from `a` on. -/
def Memory.copy (m : Memory) (a : Nat) : List Byte → Memory
  | [] => m
  | b :: bs => (m.write a b).copy (a + 1) bs

/-- `load(bytes)` (R64): the bytes go to 0x200 on; an image over 0xE00 bytes changes no memory and is reported. Only the
first `load` after reset and before the first cycle has a meaning (R64, D19, log 3). -/
def State.load (s : State) (bytes : List Byte) : Host.Outcome (LoadReport × State) Fault Refusal :=
  if s.loadOpen = false then .refused .lateLoad
  else if Config.progMax < bytes.length then .next (.programTooLarge, { s with loadOpen := false })
  else .next (.ok, { s with mem := s.mem.copy Config.progBase bytes, loadOpen := false })

/-- Reset applied by the host at any time (R230, D15): everything the spec gives the machine is as after reset; the
host's inputs to come are its own and stay (log 8). -/
def State.hostReset (s : State) : State :=
  { State.reset with pending := s.pending, draws := s.draws }

end Sys2Proof.Machine
end

