-- ==== Sys2Proof/Machine/Operands.lean ====
section
/-! DEFINITION. The operand forms: register and immediate (spec/30_encoding.md R71), the index plus a small offset
(spec/44_index_memory.md R156), the hex digit and the key index of a register (R152, R170), the decimal digits of a
register (R153), the origin of a sprite (R101), and the scan of the keypad (R173). -/

namespace Sys2Proof.Machine

/-- The base of a data access through I, an unbounded integer (R156). -/
def State.indexAddr (s : State) : Nat := s.i.toNat

/-- The registers V0..Vx, in ascending order (R154). -/
def State.regsUpTo (s : State) (x : Reg) : List Byte := s.v.toList.take (x.toNat + 1)

/-- How many registers V0..Vx is. -/
def regCount (x : Reg) : Nat := x.toNat + 1

/-- The hex digit in `V[x]`: the whole register, `InvalidDigit` above 15 (R152). -/
def State.digit (s : State) (x : Reg) : Except Cause Nat :=
  if (s.getV x).toNat ≤ 15 then .ok (s.getV x).toNat else .error (.invalidDigit (s.getV x))

/-- The address of the glyph of a digit (R152, R52). -/
def glyphAddr (d : Nat) : Word := BitVec.ofNat 16 (Config.glyphBase + 5 * d)

/-- Whether the key named by `V[x]` is pressed; `KeyIndexOutOfRange` above 15 (R170, R171). -/
def State.keyOf (s : State) (x : Reg) : Except Cause Bool :=
  if h : (s.getV x).toNat < 16 then .ok (s.keys[(s.getV x).toNat]'h) else .error (.keyIndexOutOfRange (s.getV x))

/-- The lowest pressed key among those listed (R173). -/
def State.scanKeys (s : State) : List (Fin 16) → Option (Fin 16)
  | [] => none
  | k :: ks => if s.keys[k] then some k else s.scanKeys ks

/-- The lowest pressed key, in an ascending scan of all 16 (R173). -/
def State.pressedKey (s : State) : Option (Fin 16) :=
  s.scanKeys [0, 1, 2, 3, 4, 5, 6, 7, 8, 9, 10, 11, 12, 13, 14, 15]

/-- Hundreds, tens and ones of a byte (R153). -/
def bcdDigits (b : Byte) : List Byte :=
  [BitVec.ofNat 8 (b.toNat / 100), BitVec.ofNat 8 (b.toNat / 10 % 10), BitVec.ofNat 8 (b.toNat % 10)]

/-- The column of a sprite's origin, `V[x] mod 64` (R101). -/
def originX (b : Byte) : Nat := b.toNat % 64

/-- The row of a sprite's origin, `V[y] mod 32` (R101). -/
def originY (b : Byte) : Nat := b.toNat % 32

/-- The random byte of this cycle (R99, R143). -/
def State.randomByte (s : State) : Byte := s.hostInput.rand

end Sys2Proof.Machine
end

