-- ==== Sys2Proof/Machine/Flags.lean ====
section
/-! DEFINITION. The values of VF, the only flag (spec/10_state.md R35), each computed from the operands as they were before
the instruction (spec/43_alu.md R131). -/

namespace Sys2Proof.Machine

/-- A flag as the byte VF holds: 1 or 0 (R35). -/
def flagByte (c : Bool) : Byte := if c then 1#8 else 0#8

/-- The carry out of an 8-bit sum (R138). -/
def carryFlag (a b : Byte) : Byte := flagByte (decide (255 < a.toNat + b.toNat))

/-- NOT-borrow of `a - b`: 1 when there is no borrow (R139, R141). -/
def notBorrowFlag (a b : Byte) : Byte := flagByte (decide (b.toNat ≤ a.toNat))

/-- The bit a right shift by one shifts out, the old bit 0 (R140). -/
def shrFlag (a : Byte) : Byte := flagByte (a.getLsbD 0)

/-- The bit a left shift by one shifts out, the old bit 7 (R142). -/
def shlFlag (a : Byte) : Byte := flagByte (a.getLsbD 7)

/-- The collision flag of a drawn sprite (R103). -/
def collisionFlag (c : Canvas) : Byte := flagByte c.hit

end Sys2Proof.Machine
end

