-- ==== Sys2Proof/Machine/Alu.lean ====
section
/-! DEFINITION. The register and ALU instructions (spec/43_alu.md). All arithmetic wraps modulo 256 (R130). Only ADD Vx,Vy,
SUB, SHR, SUBN and SHL write a flag, and they write it last (R131, R144). -/

namespace Sys2Proof.Machine

/-- `LD Vx, kk` (R132). -/
def execLdImm (x : Reg) (kk : Byte) (s : State) : Result := s.cycle fun t => .ok (t.setV x kk)

/-- `ADD Vx, kk`, with no carry flag (R133). -/
def execAddImm (x : Reg) (kk : Byte) (s : State) : Result := s.cycle fun t => .ok (t.setV x (t.getV x + kk))

/-- `LD Vx, Vy` (R134). -/
def execLdReg (x y : Reg) (s : State) : Result := s.cycle fun t => .ok (t.setV x (t.getV y))

/-- `OR Vx, Vy` (R135). -/
def execOrReg (x y : Reg) (s : State) : Result := s.cycle fun t => .ok (t.setV x (t.getV x ||| t.getV y))

/-- `AND Vx, Vy` (R136). -/
def execAndReg (x y : Reg) (s : State) : Result := s.cycle fun t => .ok (t.setV x (t.getV x &&& t.getV y))

/-- `XOR Vx, Vy` (R137). -/
def execXorReg (x y : Reg) (s : State) : Result := s.cycle fun t => .ok (t.setV x (t.getV x ^^^ t.getV y))

/-- `ADD Vx, Vy`: VF is the carry (R138). -/
def execAddReg (x y : Reg) (s : State) : Result :=
  s.cycle fun t => .ok (t.setVFlag x (t.getV x + t.getV y) (carryFlag (t.getV x) (t.getV y)))

/-- `SUB Vx, Vy`: `V[x] - V[y]`, VF is NOT-borrow (R139). -/
def execSub (x y : Reg) (s : State) : Result :=
  s.cycle fun t => .ok (t.setVFlag x (t.getV x - t.getV y) (notBorrowFlag (t.getV x) (t.getV y)))

/-- `SHR Vx`: `V[x]` is shifted in place, VF is the bit shifted out (R140). -/
def execShr (x : Reg) (s : State) : Result :=
  s.cycle fun t => .ok (t.setVFlag x (t.getV x >>> 1) (shrFlag (t.getV x)))

/-- `SUBN Vx, Vy`: `V[y] - V[x]` into `V[x]`, VF is NOT-borrow (R141). -/
def execSubn (x y : Reg) (s : State) : Result :=
  s.cycle fun t => .ok (t.setVFlag x (t.getV y - t.getV x) (notBorrowFlag (t.getV y) (t.getV x)))

/-- `SHL Vx`: `V[x]` is shifted in place, VF is the bit shifted out (R142). -/
def execShl (x : Reg) (s : State) : Result :=
  s.cycle fun t => .ok (t.setVFlag x (t.getV x <<< 1) (shlFlag (t.getV x)))

/-- `RND Vx, kk`: the random byte of the cycle ANDed with `kk` (R143). -/
def execRnd (x : Reg) (kk : Byte) (s : State) : Result := s.cycle fun t => .ok (t.setV x (t.randomByte &&& kk))

end Sys2Proof.Machine
end

