-- ==== Sys2Proof/Machine/Control.lean ====
section
/-! DEFINITION. The control-flow instructions (spec/42_control_flow.md). In each the pc is already advanced (R92). -/

namespace Sys2Proof.Machine

/-- `RET`: pop the pc (R110). -/
def execRet (s : State) : Result :=
  s.cycle fun t => do
    let (target, u) ← t.pop
    .ok (u.jump target)

/-- `JP nnn` (R111). -/
def execJp (nnn : Addr) (s : State) : Result := s.cycle fun t => .ok (t.jump (nnn.setWidth 16))

/-- `CALL nnn`: push the advanced pc, then jump (R112). -/
def execCall (nnn : Addr) (s : State) : Result :=
  s.cycle fun t => do
    let u ← t.push t.pc
    .ok (u.jump (nnn.setWidth 16))

/-- `SE Vx, kk` (R113). -/
def execSeImm (x : Reg) (kk : Byte) (s : State) : Result := s.cycle fun t => .ok (t.skipIf (t.getV x == kk))

/-- `SNE Vx, kk` (R114). -/
def execSneImm (x : Reg) (kk : Byte) (s : State) : Result := s.cycle fun t => .ok (t.skipIf (t.getV x != kk))

/-- `SE Vx, Vy` (R115). -/
def execSeReg (x y : Reg) (s : State) : Result := s.cycle fun t => .ok (t.skipIf (t.getV x == t.getV y))

/-- `SNE Vx, Vy` (R116). -/
def execSneReg (x y : Reg) (s : State) : Result := s.cycle fun t => .ok (t.skipIf (t.getV x != t.getV y))

/-- `JP V0, nnn`: the offset is always V0; the sum is not masked to 12 bits (R117). -/
def execJpV0 (nnn : Addr) (s : State) : Result :=
  s.cycle fun t => .ok (t.jump (nnn.setWidth 16 + (t.getV 0#4).setWidth 16))

end Sys2Proof.Machine
end

