-- ==== Sys2Proof/Machine/Display.lean ====
section
/-! DEFINITION. The display instructions (spec/41_display.md). -/

namespace Sys2Proof.Machine

/-- `CLS`: every pixel off (R100). -/
def execCls (s : State) : Result := s.cycle fun t => .ok { t with fb := Framebuffer.clear }

/-- `DRW Vx, Vy, n`: read `n` sprite bytes from I on, XOR them on the framebuffer at the wrapped origin, clipped at the
edges, and put the collision in VF (R101, R102, R103). The origin is read before VF is written. -/
def execDrw (x y : Reg) (n : Nibble) (s : State) : Result :=
  s.cycle fun t => do
    let rows ← t.loadBytes t.indexAddr n.toNat
    let drawn := Canvas.plotRows { fb := t.fb, hit := false } (originX (t.getV x)) (originY (t.getV y)) rows
    .ok ({ t with fb := drawn.fb }.setV regF (collisionFlag drawn))

end Sys2Proof.Machine
end

