-- ==== Sys2Proof/Machine/Index.lean ====
section
/-! DEFINITION. The index register and memory-transfer instructions (spec/44_index_memory.md). None of the accesses changes
I (R156). -/

namespace Sys2Proof.Machine

/-- `LD I, nnn` (R150). -/
def execLdI (nnn : Addr) (s : State) : Result := s.cycle fun t => .ok (t.setI (nnn.setWidth 16))

/-- `ADD I, Vx`, modulo 2^16, with no flag (R151). -/
def execAddIVx (x : Reg) (s : State) : Result := s.cycle fun t => .ok (t.setI (t.i + (t.getV x).setWidth 16))

/-- `LD F, Vx`: I points at the glyph of the digit in `V[x]` (R152). -/
def execLdFVx (x : Reg) (s : State) : Result :=
  s.cycle fun t => do
    let d ← t.digit x
    .ok (t.setI (glyphAddr d))

/-- `LD B, Vx`: the three decimal digits of `V[x]` at I, I+1, I+2 (R153). -/
def execLdBVx (x : Reg) (s : State) : Result :=
  s.cycle fun t => t.storeBytes t.indexAddr (bcdDigits (t.getV x))

/-- `LD [I], Vx`: V0..Vx to memory from I on (R154). -/
def execLdMemVx (x : Reg) (s : State) : Result :=
  s.cycle fun t => t.storeBytes t.indexAddr (t.regsUpTo x)

/-- `LD Vx, [I]`: V0..Vx from memory from I on (R155). -/
def execLdVxMem (x : Reg) (s : State) : Result :=
  s.cycle fun t => do
    let bs ← t.loadBytes t.indexAddr (regCount x)
    .ok (t.setVs bs)

end Sys2Proof.Machine
end

