-- ==== Sys2Proof/Machine/KeyTimer.lean ====
section
/-! DEFINITION. The keypad and timer instructions (spec/45_keypad_timers.md). A timer is written before the tick of the same
cycle and read before it (R176). -/

namespace Sys2Proof.Machine

/-- `SKP Vx`: skip if the key named by `V[x]` is pressed (R170). -/
def execSkp (x : Reg) (s : State) : Result :=
  s.cycle fun t => do
    let pressed ← t.keyOf x
    .ok (t.skipIf pressed)

/-- `SKNP Vx`: skip if the key named by `V[x]` is not pressed (R171). -/
def execSknp (x : Reg) (s : State) : Result :=
  s.cycle fun t => do
    let pressed ← t.keyOf x
    .ok (t.skipIf (!pressed))

/-- `LD Vx, DT` (R172). -/
def execLdVxDt (x : Reg) (s : State) : Result := s.cycle fun t => .ok (t.setV x t.dt)

/-- `LD Vx, K`: the lowest pressed key goes to `V[x]`; with none pressed the pc is rewound to this instruction (R173). -/
def execLdVxK (x : Reg) (s : State) : Result :=
  s.cycle fun t =>
    .ok ((t.setV x (match t.pressedKey with
      | some k => BitVec.ofNat 8 k.val
      | none => t.getV x)).jump (match t.pressedKey with
      | some _ => t.pc
      | none => t.pc - 2#16))

/-- `LD DT, Vx` (R174). -/
def execLdDtVx (x : Reg) (s : State) : Result := s.cycle fun t => .ok (t.setDT (t.getV x))

/-- `LD ST, Vx` (R175). -/
def execLdStVx (x : Reg) (s : State) : Result := s.cycle fun t => .ok (t.setST (t.getV x))

end Sys2Proof.Machine
end

