-- ==== Sys2Proof/Machine/NoOp.lean ====
section
/-! DEFINITION. The no-op words (spec/40_cycle.md R97): nothing but the advance and the tick. -/

namespace Sys2Proof.Machine

/-- `SYS nnn`, a no-op of group 0; the operand is ignored (R97). -/
def execSysNop (_nnn : Addr) (s : State) : Result := s.cycle fun t => .ok t

/-- An unclaimed word of group 8 (R97). -/
def execNop8 (_n : Nibble) (s : State) : Result := s.cycle fun t => .ok t

/-- An unclaimed word of group E (R97). -/
def execNopE (_n : Nibble) (s : State) : Result := s.cycle fun t => .ok t

/-- An unclaimed word of group F (R97). -/
def execNopF (_kk : Byte) (s : State) : Result := s.cycle fun t => .ok t

end Sys2Proof.Machine
end

