-- ==== Sys2Proof/Machine/Step.lean ====
section
/-! DEFINITION. One step: one `cycle()` of the core (spec/40_cycle.md R90), and where the next instruction is fetched. -/

namespace Sys2Proof.Machine

/-- One cycle. A faulted core is halted and returns its record (R98). Else the fetch (R91), whose fault is taken with no
opcode (R201), and then the decoded instruction (R93, R94) with its opcode latched. -/
def step (s : State) : Host.Outcome State Fault Refusal :=
  match s.fault with
  | some r => .fault (.halted r)
  | none =>
    match s.fetch with
    | .error c => .next (s.takeFetchFault c)
    | .ok w => exec (decode w) (s.latch w)

/-- The state with the word of a table row stored where the next step fetches: at the pc, high byte first. It stands for
a `load` from outside the machine (log 9). -/
def State.withFetchWord (s : State) (nbits w : Nat) : State :=
  { s with mem := (s.mem.write s.pc.toNat (tableBytes nbits w).1).write (s.pc.toNat + 1) (tableBytes nbits w).2 }

end Sys2Proof.Machine
end

