-- ==== Sys2Proof/Safety.lean ====
section
/-! DEFINITION. The terms that claims are stated in: what a cycle keeps and changes (the frame), what a taken fault leaves
(spec/60_exceptions.md R201), when an instruction faults (R200), the invariant of the machine, and the end of a run
(spec/70_reset_and_hazards.md R241). -/

namespace Sys2Proof

/-- The words no instruction claims, by their numbers (spec/40_cycle.md R97). -/
def unclaimedWord (w : Word) : Prop :=
  (w.toNat / 4096 = 0x0 ∧ w.toNat % 16 ≠ 0x0 ∧ w.toNat % 16 ≠ 0xE) ∨
  (w.toNat / 4096 = 0x8 ∧ (8 ≤ w.toNat % 16 ∧ w.toNat % 16 ≤ 0xD ∨ w.toNat % 16 = 0xF)) ∨
  (w.toNat / 4096 = 0xE ∧ w.toNat % 16 ≠ 0x1 ∧ w.toNat % 16 ≠ 0xE) ∨
  (w.toNat / 4096 = 0xF ∧ w.toNat % 256 ∉ [0x07, 0x0A, 0x15, 0x18, 0x1E, 0x29, 0x33, 0x55, 0x65])

/-- The no-op instructions (R97). -/
def Instr.IsNoOp (i : Instr) : Prop :=
  (∃ nnn, i = .sysNop nnn) ∨ (∃ n, i = .nop8 n) ∨ (∃ n, i = .nopE n) ∨ (∃ kk, i = .nopF kk)

/-- The general registers that an instruction may write (spec/10_state.md R22). -/
def Instr.WritesV (i : Instr) (r : Reg) : Prop :=
  match i with
  | .ldImm x _ | .addImm x _ | .rnd x _ | .ldVxDt x | .ldVxK x => r = x
  | .ldReg x _ | .orReg x _ | .andReg x _ | .xorReg x _ => r = x
  | .addReg x _ | .sub x _ | .shr x | .subn x _ | .shl x => r = x ∨ r = regF
  | .drw _ _ _ => r = regF
  | .ldVxMem x => r ≤ x
  | _ => False

/-- How many bytes from I on an instruction reads (spec/20_memory.md R58). -/
def Instr.readLen : Instr → Nat
  | .drw _ _ n => n.toNat
  | .ldVxMem x => x.toNat + 1
  | _ => 0

/-- How many bytes from I on an instruction writes (R58). -/
def Instr.storeLen : Instr → Nat
  | .ldBVx _ => 3
  | .ldMemVx x => x.toNat + 1
  | _ => 0

namespace Machine

/-! ### Frames -/

/-- Every general register but the listed ones keeps its value. -/
def State.KeepsVBut (s t : State) (rs : List Reg) : Prop := ∀ r, r ∉ rs → t.getV r = s.getV r

/-- Every general register keeps its value. -/
def State.KeepsV (s t : State) : Prop := s.KeepsVBut t []

/-- The stack pointer and every stack entry keep their values. -/
def State.KeepsStack (s t : State) : Prop := t.sp = s.sp ∧ ∀ k : Fin 16, t.stack[k] = s.stack[k]

/-- Every byte of memory outside the `n` bytes from `a` on reads as before. -/
def State.KeepsMemBut (s t : State) (a n : Nat) : Prop :=
  ∀ b, ¬ (a ≤ b ∧ b < a + n) → t.mem.read b = s.mem.read b

/-- Every byte of memory reads as before. -/
def State.KeepsMem (s t : State) : Prop := ∀ b, t.mem.read b = s.mem.read b

/-- Every pixel is as before. -/
def State.KeepsFb (s t : State) : Prop := ∀ px py, t.fb.get px py = s.fb.get px py

/-- The cycle used its inputs (the model's own fields, log 1 and log 3). -/
def State.UsedInput (s t : State) : Prop :=
  t.pending = s.pending.tail ∧ t.draws = s.draws + 1 ∧ t.loadOpen = false

/-- Each timer is 1 less while above 0 (spec/40_cycle.md R95). -/
def State.Ticked (s t : State) : Prop := t.dt.toNat = s.dt.toNat - 1 ∧ t.st.toNat = s.st.toNat - 1

/-- The cycle completed: no fault was recorded, `K` is the snapshot the host supplied (R99), the opcode is gone (R31). -/
def State.Completed (s t : State) : Prop :=
  t.fault = s.fault ∧ t.keys = s.hostInput.keys ∧ t.op = none ∧ s.UsedInput t

/-- The cycle completed and ticked, and left I, the stack, memory and the framebuffer alone: only general registers and
the pc may differ. -/
def State.OnlyVAndPc (s t : State) : Prop :=
  s.Completed t ∧ s.Ticked t ∧ t.i = s.i ∧ s.KeepsStack t ∧ s.KeepsMem t ∧ s.KeepsFb t

/-- The cycle completed and ticked, and left every general register, the stack, memory and the framebuffer alone: only I
and the pc may differ. -/
def State.OnlyIAndPc (s t : State) : Prop :=
  s.Completed t ∧ s.Ticked t ∧ s.KeepsV t ∧ s.KeepsStack t ∧ s.KeepsMem t ∧ s.KeepsFb t

/-- A fault was taken: nothing of the cycle is kept, nothing ticked, and the record holds the cause, the pc and the opcode
(R96, R201). -/
def State.FaultTaken (s t : State) (c : Cause) (fop : Option Word) : Prop :=
  t.fault = some { cause := c, fpc := s.pc, fop := fop } ∧ t.pc = s.pc ∧ s.KeepsV t ∧ t.i = s.i ∧ s.KeepsStack t ∧
  s.KeepsMem t ∧ s.KeepsFb t ∧ t.dt = s.dt ∧ t.st = s.st ∧ t.keys = s.keys ∧ t.op = none ∧ s.UsedInput t

/-! ### When an instruction faults -/

/-- The cause and its condition for an instruction (R200). The recorded address is the first one above 0xFFF. -/
def State.CauseFits (s : State) (i : Instr) : Cause → Prop
  | .stackOverflow => (∃ nnn, i = .call nnn) ∧ s.sp = 16
  | .stackUnderflow => i = .ret ∧ s.sp = 0
  | .invalidDigit d => ∃ x, i = .ldFVx x ∧ s.getV x = d ∧ 15 < d.toNat
  | .memoryOutOfBounds a => a = max s.i.toNat 0x1000 ∧ a < s.i.toNat + (i.readLen + i.storeLen)
  | .keyIndexOutOfRange d => ∃ x, (i = .skp x ∨ i = .sknp x) ∧ s.getV x = d ∧ 15 < d.toNat

/-! ### The sprite (spec/41_display.md) -/

/-- Whether the sprite of `DRW x, y, n` has a set bit at a pixel: bit 7 of a byte is its leftmost column (R101, R104). -/
def State.spriteBit (s : State) (x y : Reg) (n : Nibble) (px py : Nat) : Bool :=
  let ox := (s.getV x).toNat % 64
  let oy := (s.getV y).toNat % 32
  decide (ox ≤ px ∧ px < ox + 8 ∧ oy ≤ py ∧ py < oy + n.toNat) &&
    (s.mem.read (s.i.toNat + (py - oy))).getLsbD (7 - (px - ox))

/-! ### The invariant -/

/-- A recorded fault agrees with the state it left: the pc is still at the faulting instruction, and the fetch there
fails as recorded, or gives the recorded opcode, whose instruction has that cause (R200, R201). -/
def FaultRecord.Sound (r : FaultRecord) (s : State) : Prop :=
  r.fpc = s.pc ∧
    match r.fop with
    | none => s.fetch = .error r.cause
    | some w => s.fetch = .ok w ∧ s.CauseFits (decode w) r.cause

/-- What holds between cycles: memory is canonical, the opcode holds no value (R31), the pc and the stack entries stay
within the bounds that keep the pc from wrapping (R24), and a recorded fault is sound. -/
def State.Inv (s : State) : Prop :=
  s.mem.wf ∧ s.op = none ∧ s.pc.toNat ≤ 0x10FE ∧ (∀ k : Fin 16, s.stack[k].toNat ≤ 0x1000) ∧
    ∀ r, s.fault = some r → r.Sound s

/-! ### The end of a run (R241) -/

/-- The next instruction is `JP a` stored at its own address `a`. -/
def State.AtSelfJump (s : State) : Prop :=
  s.fault = none ∧ ∃ w nnn, s.fetch = .ok w ∧ decode w = .jp nnn ∧ nnn.toNat = s.pc.toNat

/-- A safe run has recorded no fault. -/
def State.Safe (s : State) : Prop := s.fault = none

/-- The two ends of a run; only the first can be a successful one. -/
def State.EndOfRun (s : State) : Prop := s.AtSelfJump ∨ ¬ s.Safe

end Machine

end Sys2Proof
end

