-- ==== Sys2Proof/Certificates/Slice0/Obligations.lean ====
section
/-! DEFINITION. The statements for the provers. Each docstring names the rules of spec/ that it formalises, and where a
clause rests on a decision or a presumption that spec/ marks as its own, which one (the log entry stands beside it). -/

open Sys2Proof Sys2Proof.Machine

/-! ### Encoding and decoding -/

/-- R80: the five words that the source gives decode to the instructions it names, as words and as bytes. -/
def Obligations.SourceWordsDecode : Prop :=
  decode 0x00E0#16 = .cls ∧ decode 0x1200#16 = .jp 0x200#12 ∧ decode 0x6A02#16 = .ldImm 0xA#4 0x02#8 ∧
  decode 0xFA33#16 = .ldBVx 0xA#4 ∧ decode 0xF265#16 = .ldVxMem 0x2#4 ∧
  decodeBytes [0x00#8, 0xE0#8] = .ok (.cls, []) ∧ decodeBytes [0x12#8, 0x00#8] = .ok (.jp 0x200#12, []) ∧
  decodeBytes [0x6A#8, 0x02#8] = .ok (.ldImm 0xA#4 0x02#8, []) ∧ decodeBytes [0xFA#8, 0x33#8] = .ok (.ldBVx 0xA#4, []) ∧
  decodeBytes [0xF2#8, 0x65#8] = .ok (.ldVxMem 0x2#4, [])

/-- R76, R77: the whole opcode map, each row's word built as a NUMBER from the row's match value and its operands, for
every value of every operand and of every ignored bit (`p`, `q`). The selector values are GK1 (log 5), the ignored bits
D2 and, for `y` of the shifts, D6 (log 7). -/
def Obligations.OpcodeMapOfEveryRow : Prop :=
  ∀ (x y n p q : Nibble) (kk : Byte) (nnn : Addr),
    let X := 256 * x.toNat
    let Y := 16 * y.toNat
    let P := 256 * p.toNat + 16 * q.toNat
    decode (BitVec.ofNat 16 (0x0000 + P)) = .cls ∧
    decode (BitVec.ofNat 16 (0x000E + P)) = .ret ∧
    decode (BitVec.ofNat 16 (0x1000 + nnn.toNat)) = .jp nnn ∧
    decode (BitVec.ofNat 16 (0x2000 + nnn.toNat)) = .call nnn ∧
    decode (BitVec.ofNat 16 (0x3000 + X + kk.toNat)) = .seImm x kk ∧
    decode (BitVec.ofNat 16 (0x4000 + X + kk.toNat)) = .sneImm x kk ∧
    decode (BitVec.ofNat 16 (0x5000 + X + Y + p.toNat)) = .seReg x y ∧
    decode (BitVec.ofNat 16 (0x6000 + X + kk.toNat)) = .ldImm x kk ∧
    decode (BitVec.ofNat 16 (0x7000 + X + kk.toNat)) = .addImm x kk ∧
    decode (BitVec.ofNat 16 (0x8000 + X + Y)) = .ldReg x y ∧
    decode (BitVec.ofNat 16 (0x8001 + X + Y)) = .orReg x y ∧
    decode (BitVec.ofNat 16 (0x8002 + X + Y)) = .andReg x y ∧
    decode (BitVec.ofNat 16 (0x8003 + X + Y)) = .xorReg x y ∧
    decode (BitVec.ofNat 16 (0x8004 + X + Y)) = .addReg x y ∧
    decode (BitVec.ofNat 16 (0x8005 + X + Y)) = .sub x y ∧
    decode (BitVec.ofNat 16 (0x8006 + X + Y)) = .shr x ∧
    decode (BitVec.ofNat 16 (0x8007 + X + Y)) = .subn x y ∧
    decode (BitVec.ofNat 16 (0x800E + X + Y)) = .shl x ∧
    decode (BitVec.ofNat 16 (0x9000 + X + Y + p.toNat)) = .sneReg x y ∧
    decode (BitVec.ofNat 16 (0xA000 + nnn.toNat)) = .ldI nnn ∧
    decode (BitVec.ofNat 16 (0xB000 + nnn.toNat)) = .jpV0 nnn ∧
    decode (BitVec.ofNat 16 (0xC000 + X + kk.toNat)) = .rnd x kk ∧
    decode (BitVec.ofNat 16 (0xD000 + X + Y + n.toNat)) = .drw x y n ∧
    decode (BitVec.ofNat 16 (0xE00E + X + Y)) = .skp x ∧
    decode (BitVec.ofNat 16 (0xE001 + X + Y)) = .sknp x ∧
    decode (BitVec.ofNat 16 (0xF007 + X)) = .ldVxDt x ∧
    decode (BitVec.ofNat 16 (0xF00A + X)) = .ldVxK x ∧
    decode (BitVec.ofNat 16 (0xF015 + X)) = .ldDtVx x ∧
    decode (BitVec.ofNat 16 (0xF018 + X)) = .ldStVx x ∧
    decode (BitVec.ofNat 16 (0xF01E + X)) = .addIVx x ∧
    decode (BitVec.ofNat 16 (0xF029 + X)) = .ldFVx x ∧
    decode (BitVec.ofNat 16 (0xF033 + X)) = .ldBVx x ∧
    decode (BitVec.ofNat 16 (0xF055 + X)) = .ldMemVx x ∧
    decode (BitVec.ofNat 16 (0xF065 + X)) = .ldVxMem x

/-- R78: every word that no instruction claims executes as a no-op, and every other word does not: for every word, the
instruction it decodes to is a no-op exactly when the word is unclaimed, and then its cycle completes with the advance
and the tick and changes nothing else. The twelve single-instruction groups hold no unclaimed word. Which selectors are
claimed is R97's list, whose values are GK1 (log 5); that bits 11:4 take no part is D2 (log 7). -/
def Obligations.UnclaimedWordsAreNoOps : Prop :=
  ∀ w : Word,
    (unclaimedWord w ↔ (decode w).IsNoOp) ∧
    (w.toNat / 4096 ∉ [0x0, 0x8, 0xE, 0xF] → ¬ (decode w).IsNoOp) ∧
    (unclaimedWord w → ∀ s : State, ∃ t, exec (decode w) s = .next t ∧ s.OnlyVAndPc t ∧ s.KeepsV t ∧
      t.pc = s.pc + 2#16)

/-- R72, R76: decoding the word of a well-formed instruction gives the instruction back, every operand whole. The
selector values of the words are GK1 (log 5). -/
def Obligations.DecodeOfEncode : Prop := ∀ i : Instr, i.WellFormed → decode (encode i) = i

/-- R76, R77: every word decodes to a well-formed instruction, and encoding that instruction again gives back every bit
that R76 does not mark as ignored. Which bits are ignored is D2 and, for `y` of the shifts, D6 (log 7); the selector
values are GK1 (log 5). -/
def Obligations.EncodeOfDecodeKeepsUsedBits : Prop :=
  ∀ w : Word, (decode w).WellFormed ∧
    encode (decode w) &&& (decode w).usedBits = w &&& (decode w).usedBits

/-! ### The step -/

/-- R56, R91, R93, R94: with no fault recorded and two bytes to fetch, a step is `exec` of the instruction that the two
bytes decode to, high byte first, at the state with that opcode latched. -/
def Obligations.StepRunsDecodedInstruction : Prop :=
  ∀ (s : State) (w : Word), s.fault = none → s.pc.toNat < 0xFFF →
    w.toNat = 256 * (s.mem.read s.pc.toNat).toNat + (s.mem.read (s.pc.toNat + 1)).toNat →
    step s = exec (decode w) { s with op := some w }

/-- R91 (with D9 and D10, log 7): a fetch above 0xFFF faults with the first such address; nothing is executed, the pc is
not advanced, the timers do not tick, and the record holds no opcode. -/
def Obligations.FetchAboveMemoryFaults : Prop :=
  ∀ s : State, s.fault = none → 0xFFE < s.pc.toNat →
    ∃ t, step s = .next t ∧ s.FaultTaken t (.memoryOutOfBounds (max s.pc.toNat 0x1000)) none

/-- R98, R202 (with D10, log 7): in a faulted state a cycle returns the recorded fault and goes no further. -/
def Obligations.FaultedCoreHalts : Prop :=
  ∀ (s : State) (r : FaultRecord), s.fault = some r → step s = .fault (.halted r)

/-- R90, R96, R201 (with D10, log 7): whatever the instruction, its cycle either completes with its fault state as it
was, or takes one fault and keeps nothing else; it never stops or refuses. -/
def Obligations.CyclesCompleteOrFaultPrecisely : Prop :=
  ∀ (i : Instr) (s : State), ∃ t, exec i s = .next t ∧ (s.Completed t ∨ ∃ c, s.FaultTaken t c s.op)

/-- R200, R203 (with D9 to D13, log 7): with no fault recorded yet, an instruction takes a fault with a cause exactly
when that cause's condition holds of it; so at most one cause applies. -/
def Obligations.FaultsExactlyOnListedConditions : Prop :=
  ∀ (i : Instr) (s : State) (c : Cause), s.fault = none →
    (s.CauseFits i c ↔ ∃ t, exec i s = .next t ∧ s.FaultTaken t c s.op)

/-! ### Reset, load and the host -/

/-- R230, R231: what reset leaves, in `State.reset` and, for the host's reset at any time, in `State.hostReset`. The
values of I, FB, K and `fault` are D15 and D10 (log 7), the zeros of 0x0A0..0x1FF D16 (log 7), the glyph bytes FONT
(log 4); that the host's pending inputs stay is log 8. -/
def Obligations.ResetLeavesListedValues : Prop :=
  ∀ u : State, ∀ s ∈ [State.reset, u.hostReset],
    (∀ r, s.getV r = 0#8) ∧ s.i = 0#16 ∧ s.pc = 0x200#16 ∧ (∀ k : Fin 16, s.stack[k] = 0#16) ∧ s.sp = 0 ∧
    s.dt = 0#8 ∧ s.st = 0#8 ∧ (∀ px py, s.fb.get px py = false) ∧ (∀ k : Fin 16, s.keys[k] = false) ∧ s.fault = none ∧
    (∀ a, a < 0x050 ∨ 0x09F < a → s.mem.read a = 0#8) ∧
    (∀ k : Fin 80, some (s.mem.read (0x050 + k.val)) = Config.font[k.val]?)

/-- The invariant holds right after reset (R230). That memory is then canonical is the model's form (log 13), that no fault
record is there to be unsound is D10 (log 7). -/
def Obligations.ResetSatisfiesInvariant : Prop := State.reset.Inv

/-- From every state that meets the invariant, a step that answers a next state keeps it: memory stays canonical, the
opcode holds no value between cycles (R31), the pc never passes 0x10FE (R24), and a recorded fault stays true of the
state it left (R200, R201). The canonical form is the model's (log 13), the fault record D10 (log 7). -/
def Obligations.StepKeepsInvariant : Prop := ∀ s t : State, s.Inv → step s = .next t → t.Inv

/-- R64 (with D19, log 3 and log 7): `load` copies the bytes verbatim to 0x200 on and changes nothing else; an image
over 0xE00 bytes leaves memory as it was and is reported; any `load` but the first is refused by name. -/
def Obligations.LoadCopiesImage : Prop :=
  ∀ (s : State) (bs : List Byte),
    (s.loadOpen = true → bs.length ≤ 0xE00 →
      ∃ m, s.load bs = .next (.ok, { s with mem := m, loadOpen := false }) ∧
        ∀ a, m.read a = if 0x200 ≤ a ∧ a < 0x200 + bs.length then bs.getD (a - 0x200) 0#8 else s.mem.read a) ∧
    (s.loadOpen = true → 0xE00 < bs.length → s.load bs = .next (.programTooLarge, { s with loadOpen := false })) ∧
    (s.loadOpen = false → s.load bs = .refused .lateLoad)

/-- R64, R90, R232 and the source's first property (W1): after `load` of any image of legal size, one cycle executes the
instruction whose word is the image's first two bytes (a missing byte reads as 0). -/
def Obligations.LoadThenCycleRunsFirstWord : Prop :=
  ∀ (bs : List Byte) (w : Word), bs.length ≤ 0xE00 →
    w.toNat = 256 * (bs.getD 0 0#8).toNat + (bs.getD 1 0#8).toNat →
    ∃ s, State.reset.load bs = .next (.ok, s) ∧ step s = exec (decode w) { s with op := some w }

/-- R233: executing a zero word clears the screen and moves the pc up by 2. That the zero word is CLS, whose bits 11:4 are
ignored, is D2 (log 7). -/
def Obligations.ZeroedMemoryClearsScreen : Prop :=
  ∀ s : State, s.fault = none → s.pc.toNat < 0xFFF → s.mem.read s.pc.toNat = 0#8 →
    s.mem.read (s.pc.toNat + 1) = 0#8 →
    ∃ t, step s = .next t ∧ s.Completed t ∧ s.Ticked t ∧ s.KeepsV t ∧ t.i = s.i ∧ s.KeepsStack t ∧ s.KeepsMem t ∧
      (∀ px py, t.fb.get px py = false) ∧ t.pc = s.pc + 2#16

/-- R241, R111: at a self-jump every cycle comes back to the self-jump; the timers tick and nothing else of the machine
changes but the keypad snapshot. That a self-jump is an end of the run is D23 (log 7). -/
def Obligations.SelfJumpStays : Prop :=
  ∀ s : State, s.AtSelfJump →
    ∃ t, step s = .next t ∧ t.AtSelfJump ∧ s.OnlyVAndPc t ∧ s.KeepsV t ∧ t.pc = s.pc

/-! ### Rules of the whole machine -/

/-- R22: no instruction writes a general register but those the table lists for it, and LD Vx,K writes none where no key
is pressed. That OR, AND, XOR, LD, ADD Vx,kk and RND do not write VF as a flag is D7 (log 7). -/
def Obligations.GeneralRegisterWriters : Prop :=
  ∀ (i : Instr) (s t : State), exec i s = .next t →
    (∀ r, ¬ i.WritesV r → t.getV r = s.getV r) ∧
    (∀ x, i = .ldVxK x → (∀ k : Fin 16, s.hostInput.keys[k] = false) → s.KeepsV t)

/-- R95: the tick comes after the execute step of every cycle that does not fault: each timer ends 1 below its value
(the value just written, for LD DT,Vx and LD ST,Vx) while that is above 0, and at 0 otherwise. -/
def Obligations.TimersTickEveryCycle : Prop :=
  ∀ (i : Instr) (s t : State), s.fault = none → exec i s = .next t → t.fault = none →
    t.dt.toNat = (match i with | .ldDtVx x => (s.getV x).toNat | _ => s.dt.toNat) - 1 ∧
    t.st.toNat = (match i with | .ldStVx x => (s.getV x).toNat | _ => s.st.toNat) - 1

/-- R92: the advance by 2 comes first, for every instruction, and every jump, skip, call and rewind works from the
advanced value: the pc after a cycle that does not fault, and the return address that CALL pushes. -/
def Obligations.PcAfterEveryInstruction : Prop :=
  ∀ (i : Instr) (s t : State), s.fault = none → exec i s = .next t → t.fault = none →
    (t.pc = match i with
      | .jp nnn => nnn.setWidth 16
      | .call nnn => nnn.setWidth 16
      | .jpV0 nnn => BitVec.ofNat 16 (nnn.toNat + (s.getV 0x0#4).toNat)
      | .ret => s.stack.toList.getD (s.sp.val - 1) 0#16
      | .seImm x kk => if s.getV x = kk then s.pc + 4#16 else s.pc + 2#16
      | .sneImm x kk => if s.getV x = kk then s.pc + 2#16 else s.pc + 4#16
      | .seReg x y => if s.getV x = s.getV y then s.pc + 4#16 else s.pc + 2#16
      | .sneReg x y => if s.getV x = s.getV y then s.pc + 2#16 else s.pc + 4#16
      | .skp x => if s.hostInput.keys.toList.getD (s.getV x).toNat false then s.pc + 4#16 else s.pc + 2#16
      | .sknp x => if s.hostInput.keys.toList.getD (s.getV x).toNat false then s.pc + 2#16 else s.pc + 4#16
      | .ldVxK _ => if s.hostInput.keys.toList.contains true then s.pc + 2#16 else s.pc
      | _ => s.pc + 2#16) ∧
    (∀ nnn, i = .call nnn → t.stack.toList.getD s.sp.val 0#16 = s.pc + 2#16)

/-- R25 (with D8, log 7): I is written by LD I,nnn, ADD I,Vx and LD F,Vx, and by no other instruction. -/
def Obligations.IndexRegisterWriters : Prop :=
  ∀ (i : Instr) (s t : State), exec i s = .next t →
    t.i = match i with
      | .ldI nnn => BitVec.ofNat 16 nnn.toNat
      | .addIVx x => BitVec.ofNat 16 (s.i.toNat + (s.getV x).toNat)
      | .ldFVx x => if 15 < (s.getV x).toNat then s.i else BitVec.ofNat 16 (0x050 + 5 * (s.getV x).toNat)
      | _ => s.i

/-- R26: only CALL and RET touch the stack; CALL changes no entry but the one at SP, and RET changes none. -/
def Obligations.StackWriters : Prop :=
  ∀ (i : Instr) (s t : State), exec i s = .next t →
    ((∀ nnn, i ≠ .call nnn) → i ≠ .ret → s.KeepsStack t) ∧
    (∀ k : Fin 16, t.stack[k] ≠ s.stack[k] → (∃ nnn, i = .call nnn) ∧ k.val = s.sp.val)

/-- R29: only CLS and DRW write the framebuffer. -/
def Obligations.FramebufferWriters : Prop :=
  ∀ (i : Instr) (s t : State), exec i s = .next t → i ≠ .cls → (∀ x y n, i ≠ .drw x y n) → s.KeepsFb t

/-- R58 for the accesses of a whole cycle: what a step does beside memory depends on no byte but the two fetched and the
ones the table lists as read, and a step changes no byte but the ones the table lists as written. -/
def Obligations.MemoryAccessesAreTheListedOnes : Prop :=
  ∀ (s t : State) (m : Memory) (w : Word), s.fault = none → s.fetch = .ok w → step s = .next t →
    (m.read s.pc.toNat = s.mem.read s.pc.toNat → m.read (s.pc.toNat + 1) = s.mem.read (s.pc.toNat + 1) →
      (∀ k, k < (decode w).readLen → m.read (s.i.toNat + k) = s.mem.read (s.i.toNat + k)) →
      ∃ m', step { s with mem := m } = .next { t with mem := m' }) ∧
    s.KeepsMemBut t s.indexAddr (decode w).storeLen

/-- R28, R34: no instruction reads ST: two cycles that differ in ST alone end in states that differ in ST at most. -/
def Obligations.SoundTimerIsNeverRead : Prop :=
  ∀ (i : Instr) (s t : State) (b : Byte), exec i s = .next t →
    ∃ c, exec i { s with st := b } = .next { t with st := c }

/-- R30, R99: the keypad snapshot of a cycle is read by SKP, SKNP and LD Vx,K alone, and its random byte by RND alone.
That both are free draws of the host is D25 and D20, their place in the state log 1. -/
def Obligations.InputsAreReadByListedInstructions : Prop :=
  ∀ (i : Instr) (s t : State) (a b : HostInput) (rest : List HostInput),
    exec i { s with pending := a :: rest } = .next t →
    (a.keys = b.keys → (∀ x kk, i ≠ .rnd x kk) → exec i { s with pending := b :: rest } = .next t) ∧
    (a.rand = b.rand → (∀ x, i ≠ .skp x ∧ i ≠ .sknp x ∧ i ≠ .ldVxK x) →
      ∃ k, exec i { s with pending := b :: rest } = .next { t with keys := k })

/-- Two memories in canonical form that read alike at every address are the same list. -/
def Obligations.CanonicalMemoryIsDeterminedByReads : Prop :=
  ∀ m n : Memory, m.wf → n.wf → (∀ a, m.read a = n.read a) → m = n

/-! ### No-ops and display -/

/-- R97: each no-op class completes, whatever its fields; only the advance and the tick happen. The encoding half of R97
is UnclaimedWordsAreNoOps. -/
def Obligations.NoOpsOnlyAdvanceAndTick : Prop :=
  ∀ (nnn : Addr) (n : Nibble) (kk : Byte) (s : State), ∀ i ∈ [Instr.sysNop nnn, .nop8 n, .nopE n, .nopF kk],
    ∃ t, exec i s = .next t ∧ s.OnlyVAndPc t ∧ s.KeepsV t ∧ t.pc = s.pc + 2#16

/-- R100: CLS turns every pixel off, whatever the framebuffer was, and changes no register, VF included. -/
def Obligations.ClsTurnsEveryPixelOff : Prop :=
  ∀ s : State, ∃ t, exec .cls s = .next t ∧ s.Completed t ∧ s.Ticked t ∧ s.KeepsV t ∧ t.i = s.i ∧ s.KeepsStack t ∧
    s.KeepsMem t ∧ (∀ px py, t.fb.get px py = false) ∧ t.pc = s.pc + 2#16

/-- R101, R102, R104 (with D14 and D4, log 7, and GK6, log 6): DRW with its sprite inside memory XORs each set sprite bit on
the pixel it lands on; bits outside the grid land nowhere; nothing but the framebuffer and VF changes. -/
def Obligations.DrwXorsSpriteOntoGrid : Prop :=
  ∀ (x y : Reg) (n : Nibble) (s : State), n.toNat = 0 ∨ s.i.toNat + n.toNat ≤ 0x1000 →
    ∃ t, exec (.drw x y n) s = .next t ∧ s.Completed t ∧ s.Ticked t ∧ s.KeepsVBut t [regF] ∧ t.i = s.i ∧
      s.KeepsStack t ∧ s.KeepsMem t ∧ t.pc = s.pc + 2#16 ∧
      ∀ px py, px < 64 → py < 32 → t.fb.get px py = (s.fb.get px py ^^ s.spriteBit x y n px py)

/-- R103: VF after DRW is 1 when at least one pixel of the grid went from on to off, over the whole sprite, and 0
otherwise; a pixel that went from off to on is no collision. -/
def Obligations.DrwCollisionFlag : Prop :=
  ∀ (x y : Reg) (n : Nibble) (s : State), n.toNat = 0 ∨ s.i.toNat + n.toNat ≤ 0x1000 →
    ∃ t, exec (.drw x y n) s = .next t ∧
      ((∃ px py, px < 64 ∧ py < 32 ∧ s.fb.get px py = true ∧ t.fb.get px py = false) → t.getV regF = 1#8) ∧
      ((∀ px py, px < 64 → py < 32 → s.fb.get px py = true → t.fb.get px py = true) → t.getV regF = 0#8)

/-- R101 (with D9 and D10, log 7): a sprite that reaches above 0xFFF faults with the first such address, even where its
row would be clipped; no pixel changes. -/
def Obligations.DrwOutsideMemoryFaults : Prop :=
  ∀ (x y : Reg) (n : Nibble) (s : State), n.toNat ≠ 0 → 0x1000 < s.i.toNat + n.toNat →
    ∃ t, exec (.drw x y n) s = .next t ∧ s.FaultTaken t (.memoryOutOfBounds (max s.i.toNat 0x1000)) s.op

/-- The source's double-draw property as C2 corrects it (W6; R101 to R103; clipping is D14 and the origin read before VF is
written D4, log 7, the bit order GK6, log 6): drawing the same sprite at the same place
again, with the framebuffer as the first draw left it, restores every pixel, and VF is then 1 exactly when a drawn bit
fell on a pixel that was off before the first draw. -/
def Obligations.DoubleDrawRestoresFramebuffer : Prop :=
  ∀ (x y : Reg) (n : Nibble) (s t u : State), n.toNat = 0 ∨ s.i.toNat + n.toNat ≤ 0x1000 →
    exec (.drw x y n) s = .next t → u.fb = t.fb → u.i = s.i → u.getV x = s.getV x → u.getV y = s.getV y →
    (∀ k, k < n.toNat → u.mem.read (s.i.toNat + k) = s.mem.read (s.i.toNat + k)) →
    ∃ r, exec (.drw x y n) u = .next r ∧ s.KeepsFb r ∧
      ((∃ px py, px < 64 ∧ py < 32 ∧ s.spriteBit x y n px py = true ∧ s.fb.get px py = false) → r.getV regF = 1#8) ∧
      ((∀ px py, px < 64 → py < 32 → s.spriteBit x y n px py = true → s.fb.get px py = true) → r.getV regF = 0#8)

/-! ### Control flow -/

/-- R111: a word of group 0x1 is JP with the address in its low 12 bits, for every address; the cycle puts that address in
the pc and changes nothing else but the tick. -/
def Obligations.JpSetsPc : Prop :=
  ∀ (nnn : Addr) (s : State),
    decode (BitVec.ofNat 16 (0x1000 + nnn.toNat)) = .jp nnn ∧
    ∃ t, exec (.jp nnn) s = .next t ∧ s.OnlyVAndPc t ∧ s.KeepsV t ∧ t.pc.toNat = nnn.toNat

/-- R117: JP V0,nnn jumps to the whole sum of the address and V0, not masked to 12 bits. -/
def Obligations.JpV0AddsV0 : Prop :=
  ∀ (nnn : Addr) (s : State), ∃ t, exec (.jpV0 nnn) s = .next t ∧ s.OnlyVAndPc t ∧ s.KeepsV t ∧
    t.pc.toNat = nnn.toNat + (s.getV 0x0#4).toNat

/-- R112, R26: CALL below the full stack pushes the address of the next instruction on the entry at SP and jumps. -/
def Obligations.CallPushesReturnAddress : Prop :=
  ∀ (nnn : Addr) (s : State), s.sp.val < 16 →
    ∃ t, exec (.call nnn) s = .next t ∧ s.Completed t ∧ s.Ticked t ∧ s.KeepsV t ∧ t.i = s.i ∧ s.KeepsMem t ∧
      s.KeepsFb t ∧ t.pc.toNat = nnn.toNat ∧ t.sp.val = s.sp.val + 1 ∧
      ∀ k : Fin 16, t.stack[k] = if k.val = s.sp.val then s.pc + 2#16 else s.stack[k]

/-- R110, R26: RET above the empty stack takes the pc from the entry below SP and leaves every entry in place. -/
def Obligations.RetPopsReturnAddress : Prop :=
  ∀ s : State, 0 < s.sp.val →
    ∃ t, exec .ret s = .next t ∧ s.Completed t ∧ s.Ticked t ∧ s.KeepsV t ∧ t.i = s.i ∧ s.KeepsMem t ∧ s.KeepsFb t ∧
      t.sp.val + 1 = s.sp.val ∧ ∀ k : Fin 16, t.stack[k] = s.stack[k] ∧ (k.val + 1 = s.sp.val → t.pc = s.stack[k])

/-- R27: SP never leaves 0..16; CALL with SP = 16 raises StackOverflow and RET with SP = 0 raises StackUnderflow, and
neither changes SP. That a fault is the policy, and what raising it leaves (R201), is D10 and D11 (log 7). -/
def Obligations.StackLimitsFault : Prop :=
  (∀ (i : Instr) (s t : State), exec i s = .next t → t.sp.val ≤ 16 ∧
    (s.sp.val < t.sp.val → ∃ nnn, i = .call nnn) ∧ (t.sp.val < s.sp.val → i = .ret)) ∧
  (∀ (nnn : Addr) (s : State), s.sp = 16 → ∃ t, exec (.call nnn) s = .next t ∧ s.FaultTaken t .stackOverflow s.op) ∧
  (∀ s : State, s.sp = 0 → ∃ t, exec .ret s = .next t ∧ s.FaultTaken t .stackUnderflow s.op)

/-- R110, R112: a RET that finds the stack as a CALL left it comes back to the instruction after the CALL, with SP as
before it. -/
def Obligations.RetReturnsBehindCall : Prop :=
  ∀ (nnn : Addr) (s : State), s.sp.val < 16 →
    ∃ t, exec (.call nnn) s = .next t ∧
      ∀ u : State, u.sp = t.sp → (∀ k : Fin 16, u.stack[k] = t.stack[k]) →
        ∃ r, exec .ret u = .next r ∧ u.Completed r ∧ r.pc = s.pc + 2#16 ∧ r.sp = s.sp

/-- R118, with the conditions of R113 to R116 and of the key skips: a skip adds 2 to the advanced pc when its condition
holds, so the next fetch is at the instruction's address plus 4, reduced to 16 bits, and it changes nothing else,
whatever memory holds there. -/
def Obligations.SkipsAddTwoToAdvancedPc : Prop :=
  ∀ (x y : Reg) (kk : Byte) (s : State),
    (∀ p ∈ [(Instr.seImm x kk, decide ((s.getV x).toNat = kk.toNat)),
        (.sneImm x kk, decide ((s.getV x).toNat ≠ kk.toNat)),
        (.seReg x y, decide ((s.getV x).toNat = (s.getV y).toNat)),
        (.sneReg x y, decide ((s.getV x).toNat ≠ (s.getV y).toNat))],
      ∃ t, exec p.1 s = .next t ∧ s.OnlyVAndPc t ∧ s.KeepsV t ∧
        t.pc.toNat = (s.pc.toNat + if p.2 then 4 else 2) % 65536) ∧
    (∀ k : Fin 16, (s.getV x).toNat = k.val →
      ∀ p ∈ [(Instr.skp x, s.hostInput.keys[k]), (.sknp x, !s.hostInput.keys[k])],
        ∃ t, exec p.1 s = .next t ∧ s.OnlyVAndPc t ∧ s.KeepsV t ∧
          t.pc.toNat = (s.pc.toNat + if p.2 then 4 else 2) % 65536)

/-! ### Registers and ALU -/

/-- R132, R144: a word of group 0x6 is LD Vx,kk; the cycle puts kk in V[x], VF being an ordinary destination, and changes
no other register. That it writes no flag is D7 (log 7). -/
def Obligations.LdImmLoadsImmediate : Prop :=
  ∀ (x : Reg) (kk : Byte) (s : State),
    decode (BitVec.ofNat 16 (0x6000 + 256 * x.toNat + kk.toNat)) = .ldImm x kk ∧
    ∃ t, exec (.ldImm x kk) s = .next t ∧ s.OnlyVAndPc t ∧ t.pc = s.pc + 2#16 ∧ s.KeepsVBut t [x] ∧ t.getV x = kk

/-- R133 to R137, R144 (no flag write: D7, log 7): ADD Vx,kk, LD Vx,Vy, OR, AND and XOR write V[x] and no flag. -/
def Obligations.PlainAluWritesOnlyVx : Prop :=
  ∀ (x y : Reg) (kk : Byte) (s : State),
    ∀ p ∈ [(Instr.addImm x kk, ((s.getV x).toNat + kk.toNat) % 256), (.ldReg x y, (s.getV y).toNat),
      (.orReg x y, (s.getV x).toNat ||| (s.getV y).toNat), (.andReg x y, (s.getV x).toNat &&& (s.getV y).toNat),
      (.xorReg x y, (s.getV x).toNat ^^^ (s.getV y).toNat)],
    ∃ t, exec p.1 s = .next t ∧ s.OnlyVAndPc t ∧ t.pc = s.pc + 2#16 ∧ s.KeepsVBut t [x] ∧ (t.getV x).toNat = p.2

/-- R138, R131 (operands read first: D4; flag last: D5; log 7): ADD Vx,Vy writes the sum modulo 256 and puts the carry in
VF, also where x or y is F. -/
def Obligations.AddRegSumsAndCarries : Prop :=
  ∀ (x y : Reg) (s : State), ∃ t, exec (.addReg x y) s = .next t ∧ s.OnlyVAndPc t ∧ t.pc = s.pc + 2#16 ∧
    s.KeepsVBut t [x, regF] ∧
    (x ≠ regF → (t.getV x).toNat = ((s.getV x).toNat + (s.getV y).toNat) % 256) ∧
    (t.getV regF).toNat = if 255 < (s.getV x).toNat + (s.getV y).toNat then 1 else 0

/-- R139, R141, R131 (operands read first: D4; flag last: D5; log 7): SUB and SUBN write their difference modulo 256 and
put NOT-borrow in VF, also where x or y is F. -/
def Obligations.SubtractionsWriteNotBorrow : Prop :=
  ∀ (x y : Reg) (s : State),
    ∀ p ∈ [(Instr.sub x y, (s.getV x).toNat, (s.getV y).toNat), (.subn x y, (s.getV y).toNat, (s.getV x).toNat)],
    ∃ t, exec p.1 s = .next t ∧ s.OnlyVAndPc t ∧ t.pc = s.pc + 2#16 ∧ s.KeepsVBut t [x, regF] ∧
      (x ≠ regF → (t.getV x).toNat = (p.2.1 + 256 - p.2.2) % 256) ∧
      (t.getV regF).toNat = if p.2.2 ≤ p.2.1 then 1 else 0

/-- R140, R142, R131 (V[x] is shifted in place: D6; operand read first: D4; flag last: D5; log 7): SHR and SHL shift
V[x] by one and put the bit shifted out in VF, also where x is F. -/
def Obligations.ShiftsWriteShiftedOutBit : Prop :=
  ∀ (x : Reg) (s : State),
    ∀ p ∈ [(Instr.shr x, (s.getV x).toNat / 2, (s.getV x).toNat % 2),
      (.shl x, 2 * (s.getV x).toNat % 256, (s.getV x).toNat / 128)],
    ∃ t, exec p.1 s = .next t ∧ s.OnlyVAndPc t ∧ t.pc = s.pc + 2#16 ∧ s.KeepsVBut t [x, regF] ∧
      (x ≠ regF → (t.getV x).toNat = p.2.1) ∧ (t.getV regF).toNat = p.2.2

/-- R143, R99, R144 (the byte is a free draw: D20, log 1; no flag write: D7, log 7): RND writes the cycle's random byte
ANDed with kk, whatever that byte is, and no flag. -/
def Obligations.RndMasksRandomByte : Prop :=
  ∀ (x : Reg) (kk : Byte) (s : State), ∃ t, exec (.rnd x kk) s = .next t ∧ s.OnlyVAndPc t ∧ t.pc = s.pc + 2#16 ∧
    s.KeepsVBut t [x] ∧ (t.getV x).toNat = s.hostInput.rand.toNat &&& kk.toNat

/-! ### Index register and memory -/

/-- R150, R151 (modulo 2^16: D18, log 7): LD I,nnn and ADD I,Vx write I alone; VF is not written. -/
def Obligations.IndexLoadsAndAdds : Prop :=
  ∀ (nnn : Addr) (x : Reg) (s : State),
    ∀ p ∈ [(Instr.ldI nnn, nnn.toNat), (.addIVx x, (s.i.toNat + (s.getV x).toNat) % 65536)],
    ∃ t, exec p.1 s = .next t ∧ s.OnlyIAndPc t ∧ t.pc = s.pc + 2#16 ∧ t.i.toNat = p.2

/-- R152 (report: D12, log 7): LD F,Vx points I at the glyph of a digit up to 15, and faults with the register's whole
value above. -/
def Obligations.LdFPointsAtGlyph : Prop :=
  ∀ (x : Reg) (s : State),
    ((s.getV x).toNat ≤ 15 →
      ∃ t, exec (.ldFVx x) s = .next t ∧ s.OnlyIAndPc t ∧ t.pc = s.pc + 2#16 ∧
        t.i.toNat = 0x050 + 5 * (s.getV x).toNat) ∧
    (15 < (s.getV x).toNat →
      ∃ t, exec (.ldFVx x) s = .next t ∧ s.FaultTaken t (.invalidDigit (s.getV x)) s.op)

/-- R153: the word 0xFx33 is LD B,Vx; with its three bytes inside memory the cycle stores hundreds, tens and ones of V[x]
at I, I+1, I+2 and changes nothing else; otherwise it faults with the first address above 0xFFF and writes no digit
(D9 and D10, log 7). -/
def Obligations.LdBStoresDecimalDigits : Prop :=
  ∀ (x : Reg) (s : State),
    decode (BitVec.ofNat 16 (0xF033 + 256 * x.toNat)) = .ldBVx x ∧
    (s.i.toNat ≤ 0xFFD →
      ∃ t, exec (.ldBVx x) s = .next t ∧ s.Completed t ∧ s.Ticked t ∧ s.KeepsV t ∧ t.i = s.i ∧ s.KeepsStack t ∧
        s.KeepsFb t ∧ t.pc = s.pc + 2#16 ∧ s.KeepsMemBut t s.indexAddr 3 ∧
        (t.mem.read s.indexAddr).toNat = (s.getV x).toNat / 100 ∧
        (t.mem.read (s.indexAddr + 1)).toNat = (s.getV x).toNat / 10 % 10 ∧
        (t.mem.read (s.indexAddr + 2)).toNat = (s.getV x).toNat % 10) ∧
    (0xFFD < s.i.toNat →
      ∃ t, exec (.ldBVx x) s = .next t ∧ s.FaultTaken t (.memoryOutOfBounds (max s.i.toNat 0x1000)) s.op)

/-- R154 (I is unchanged: D8, log 7): LD [I],Vx with its bytes inside memory stores V0..Vx from I on and changes nothing
else; otherwise it faults with the first address above 0xFFF and writes nothing (D9 and D10, log 7). -/
def Obligations.LdMemStoresRegisters : Prop :=
  ∀ (x : Reg) (s : State),
    (s.i.toNat + x.toNat ≤ 0xFFF →
      ∃ t, exec (.ldMemVx x) s = .next t ∧ s.Completed t ∧ s.Ticked t ∧ s.KeepsV t ∧ t.i = s.i ∧ s.KeepsStack t ∧
        s.KeepsFb t ∧ t.pc = s.pc + 2#16 ∧ s.KeepsMemBut t s.indexAddr (x.toNat + 1) ∧
        ∀ r : Reg, r ≤ x → t.mem.read (s.indexAddr + r.toNat) = s.getV r) ∧
    (0xFFF < s.i.toNat + x.toNat →
      ∃ t, exec (.ldMemVx x) s = .next t ∧ s.FaultTaken t (.memoryOutOfBounds (max s.i.toNat 0x1000)) s.op)

/-- R155: the word 0xFx65 is LD Vx,[I]; with its bytes inside memory the cycle loads V0..Vx from I on, VF as data, and
changes nothing else; otherwise it faults with the first address above 0xFFF and writes no register (D9 and D10, log 7).
That I is unchanged is D8 (log 7). -/
def Obligations.LdVxMemLoadsRegisters : Prop :=
  ∀ (x : Reg) (s : State),
    decode (BitVec.ofNat 16 (0xF065 + 256 * x.toNat)) = .ldVxMem x ∧
    (s.i.toNat + x.toNat ≤ 0xFFF →
      ∃ t, exec (.ldVxMem x) s = .next t ∧ s.OnlyVAndPc t ∧ t.pc = s.pc + 2#16 ∧
        ∀ r : Reg, t.getV r = if r ≤ x then s.mem.read (s.indexAddr + r.toNat) else s.getV r) ∧
    (0xFFF < s.i.toNat + x.toNat →
      ∃ t, exec (.ldVxMem x) s = .next t ∧ s.FaultTaken t (.memoryOutOfBounds (max s.i.toNat 0x1000)) s.op)

/-- R154, R155 and the source's round-trip property (W7): V0..Vx dumped to memory and loaded back from the same place are
what they were, in any state that still has I and those bytes. -/
def Obligations.DumpThenLoadRestoresRegisters : Prop :=
  ∀ (x : Reg) (s : State), s.i.toNat + x.toNat ≤ 0xFFF →
    ∃ t, exec (.ldMemVx x) s = .next t ∧
      ∀ u : State, u.i = t.i → (∀ k, k ≤ x.toNat → u.mem.read (s.i.toNat + k) = t.mem.read (s.i.toNat + k)) →
        ∃ r, exec (.ldVxMem x) u = .next r ∧ r.i = s.i ∧ ∀ q : Reg, q ≤ x → r.getV q = s.getV q

/-- R63, R236 (D21, log 7): when LD [I],Vx writes over the next instruction, the very next step runs the new one. -/
def Obligations.StoreIsSeenByNextFetch : Prop :=
  ∀ (x a b : Reg) (s : State) (w : Word), s.fault = none → s.i.toNat + x.toNat ≤ 0xFFF →
    b.toNat = a.toNat + 1 → b ≤ x → (s.pc + 2#16).toNat = s.i.toNat + a.toNat →
    w.toNat = 256 * (s.getV a).toNat + (s.getV b).toNat →
    ∃ t, exec (.ldMemVx x) s = .next t ∧ step t = exec (decode w) { t with op := some w }

/-! ### Keypad and timers -/

/-- R170, R171 (fault above 15: D13, log 7): exactly one of SKP and SKNP skips where the register names a key, whatever
the snapshot; where the register is above 15 both fault with its whole value. -/
def Obligations.KeySkipsExcludeEachOther : Prop :=
  ∀ (x : Reg) (s : State),
    ((s.getV x).toNat ≤ 15 → ∃ t u, exec (.skp x) s = .next t ∧ exec (.sknp x) s = .next u ∧
      s.OnlyVAndPc t ∧ s.OnlyVAndPc u ∧ s.KeepsV t ∧ s.KeepsV u ∧
      (t.pc = s.pc + 4#16 ∧ u.pc = s.pc + 2#16 ∨ t.pc = s.pc + 2#16 ∧ u.pc = s.pc + 4#16)) ∧
    (15 < (s.getV x).toNat → ∀ i ∈ [Instr.skp x, .sknp x],
      ∃ t, exec i s = .next t ∧ s.FaultTaken t (.keyIndexOutOfRange (s.getV x)) s.op)

/-- R173 (the pc rewind: D30, log 7): LD Vx,K takes the lowest pressed key of this cycle's snapshot; with none pressed it
changes no register and leaves the pc at itself, and the timers tick either way. -/
def Obligations.LdKWaitsForLowestKey : Prop :=
  ∀ (x : Reg) (s : State),
    (∀ k : Fin 16, s.hostInput.keys[k] = true → (∀ j : Fin 16, j < k → s.hostInput.keys[j] = false) →
      ∃ t, exec (.ldVxK x) s = .next t ∧ s.OnlyVAndPc t ∧ t.pc = s.pc + 2#16 ∧ s.KeepsVBut t [x] ∧
        (t.getV x).toNat = k.val) ∧
    ((∀ k : Fin 16, s.hostInput.keys[k] = false) →
      ∃ t, exec (.ldVxK x) s = .next t ∧ s.OnlyVAndPc t ∧ t.pc = s.pc ∧ s.KeepsV t)

/-- R172, R174, R175, R176: LD Vx,DT reads the delay timer as it was before this cycle's tick; LD DT,Vx and LD ST,Vx write
their timer before it, so it ends 1 below a non-zero value; the other timer ticks as always. -/
def Obligations.TimerLoadsAroundTick : Prop :=
  ∀ (x : Reg) (s : State),
    (∃ t, exec (.ldVxDt x) s = .next t ∧ s.OnlyVAndPc t ∧ t.pc = s.pc + 2#16 ∧ s.KeepsVBut t [x] ∧ t.getV x = s.dt) ∧
    (∃ t, exec (.ldDtVx x) s = .next t ∧ s.Completed t ∧ s.KeepsV t ∧ t.i = s.i ∧ s.KeepsStack t ∧ s.KeepsMem t ∧
      s.KeepsFb t ∧ t.pc = s.pc + 2#16 ∧ t.dt.toNat = (s.getV x).toNat - 1 ∧ t.st.toNat = s.st.toNat - 1) ∧
    (∃ t, exec (.ldStVx x) s = .next t ∧ s.Completed t ∧ s.KeepsV t ∧ t.i = s.i ∧ s.KeepsStack t ∧ s.KeepsMem t ∧
      s.KeepsFb t ∧ t.pc = s.pc + 2#16 ∧ t.st.toNat = (s.getV x).toNat - 1 ∧ t.dt.toNat = s.dt.toNat - 1)

/-! ### The fault record -/

/-- R200's table, with the codes that D10 (log 7) numbers: a record that a step leaves has the code, the info, the raising
instruction and the condition of one row of it. The record of the fetch is the one without an opcode. -/
def Obligations.FaultRecordsFollowTheTable : Prop :=
  (∀ (s t : State) (r : FaultRecord), step s = .next t → t.fault = some r → r.fop = none →
    r.code = 4 ∧ 0xFFE < s.pc.toNat ∧ r.info = some (max s.pc.toNat 0x1000)) ∧
  (∀ (i : Instr) (s t : State) (r : FaultRecord), s.fault = none → exec i s = .next t → t.fault = some r →
    (r.code = 1 ∧ r.info = none ∧ (∃ nnn, i = .call nnn) ∧ s.sp = 16) ∨
    (r.code = 2 ∧ r.info = none ∧ i = .ret ∧ s.sp = 0) ∨
    (r.code = 3 ∧ ∃ x, i = .ldFVx x ∧ 15 < (s.getV x).toNat ∧ r.info = some (s.getV x).toNat) ∨
    (r.code = 4 ∧ r.info = some (max s.i.toNat 0x1000) ∧
      ((∃ x y n, i = .drw x y n ∧ n.toNat ≠ 0 ∧ 0x1000 < s.i.toNat + n.toNat) ∨
        (∃ x, i = .ldBVx x ∧ 0xFFD < s.i.toNat) ∨
        (∃ x, (i = .ldMemVx x ∨ i = .ldVxMem x) ∧ 0xFFF < s.i.toNat + x.toNat))) ∨
    (r.code = 5 ∧ ∃ x, (i = .skp x ∨ i = .sknp x) ∧ 15 < (s.getV x).toNat ∧ r.info = some (s.getV x).toNat))
end

