-- ==== Sys2Proof/Laws/Decode.lean ====
section
/-! SUPPORT. The fields of the words that the encoder builds, and the fields of a word as numbers. -/

namespace Sys2Proof

/-! ### Fields as numbers (R71) -/

theorem opG_toNat (w : Word) : (opG w).toNat = w.toNat / 4096 := by
  have := w.isLt
  simp only [opG, BitVec.extractLsb'_toNat, Nat.shiftRight_eq_div_pow]
  omega

theorem opX_toNat (w : Word) : (opX w).toNat = w.toNat / 256 % 16 := by
  simp only [opX, BitVec.extractLsb'_toNat, Nat.shiftRight_eq_div_pow]

theorem opY_toNat (w : Word) : (opY w).toNat = w.toNat / 16 % 16 := by
  simp only [opY, BitVec.extractLsb'_toNat, Nat.shiftRight_eq_div_pow]

theorem opN_toNat (w : Word) : (opN w).toNat = w.toNat % 16 := by
  simp only [opN, BitVec.extractLsb'_toNat, Nat.shiftRight_zero, Nat.reducePow]

theorem opKK_toNat (w : Word) : (opKK w).toNat = w.toNat % 256 := by
  simp only [opKK, BitVec.extractLsb'_toNat, Nat.shiftRight_zero, Nat.reducePow]

theorem opNNN_toNat (w : Word) : (opNNN w).toNat = w.toNat % 4096 := by
  simp only [opNNN, BitVec.extractLsb'_toNat, Nat.shiftRight_zero, Nat.reducePow]

/-! ### Encoded words as numbers (R72) -/

theorem append_toNat {a b : Nat} (v : BitVec a) (w : BitVec b) : (v ++ w).toNat = 2 ^ b * v.toNat + w.toNat := by
  have h := Nat.shiftLeft_add_eq_or_of_lt w.isLt v.toNat
  rw [BitVec.toNat_append, ← h, Nat.shiftLeft_eq, Nat.mul_comm]

theorem wordNNN_toNat (g : Nibble) (nnn : Addr) : (wordNNN g nnn).toNat = 4096 * g.toNat + nnn.toNat :=
  append_toNat g nnn

theorem wordXKK_toNat (g : Nibble) (x : Reg) (kk : Byte) :
    (wordXKK g x kk).toNat = 4096 * g.toNat + 256 * x.toNat + kk.toNat := by
  have h : (wordXKK g x kk).toNat = _ := append_toNat (g ++ x) kk
  rw [h, append_toNat]
  omega

theorem wordXYN_toNat (g : Nibble) (x y : Reg) (n : Nibble) :
    (wordXYN g x y n).toNat = 4096 * g.toNat + 256 * x.toNat + 16 * y.toNat + n.toNat := by
  have h : (wordXYN g x y n).toNat = _ := append_toNat (g ++ x ++ y) n
  rw [h, append_toNat, append_toNat]
  omega

/-! ### Fields of encoded words -/

@[simp] theorem opG_wordNNN (g : Nibble) (nnn : Addr) : opG (wordNNN g nnn) = g := by
  have := nnn.isLt
  apply BitVec.eq_of_toNat_eq; rw [opG_toNat, wordNNN_toNat]; omega

@[simp] theorem opNNN_wordNNN (g : Nibble) (nnn : Addr) : opNNN (wordNNN g nnn) = nnn := by
  have := nnn.isLt
  apply BitVec.eq_of_toNat_eq; rw [opNNN_toNat, wordNNN_toNat]; omega

@[simp] theorem opN_wordNNN (g : Nibble) (nnn : Addr) : opN (wordNNN g nnn) = nnn.extractLsb' 0 4 := by
  apply BitVec.eq_of_toNat_eq
  rw [opN_toNat, wordNNN_toNat, BitVec.extractLsb'_toNat, Nat.shiftRight_zero]
  omega

@[simp] theorem opG_wordXKK (g : Nibble) (x : Reg) (kk : Byte) : opG (wordXKK g x kk) = g := by
  have := x.isLt; have := kk.isLt
  apply BitVec.eq_of_toNat_eq; rw [opG_toNat, wordXKK_toNat]; omega

@[simp] theorem opX_wordXKK (g : Nibble) (x : Reg) (kk : Byte) : opX (wordXKK g x kk) = x := by
  have := x.isLt; have := kk.isLt
  apply BitVec.eq_of_toNat_eq; rw [opX_toNat, wordXKK_toNat]; omega

@[simp] theorem opKK_wordXKK (g : Nibble) (x : Reg) (kk : Byte) : opKK (wordXKK g x kk) = kk := by
  have := kk.isLt
  apply BitVec.eq_of_toNat_eq; rw [opKK_toNat, wordXKK_toNat]; omega

@[simp] theorem opN_wordXKK (g : Nibble) (x : Reg) (kk : Byte) : opN (wordXKK g x kk) = kk.extractLsb' 0 4 := by
  apply BitVec.eq_of_toNat_eq
  rw [opN_toNat, wordXKK_toNat, BitVec.extractLsb'_toNat, Nat.shiftRight_zero]
  omega

@[simp] theorem opG_wordXYN (g : Nibble) (x y : Reg) (n : Nibble) : opG (wordXYN g x y n) = g := by
  have := x.isLt; have := y.isLt; have := n.isLt
  apply BitVec.eq_of_toNat_eq; rw [opG_toNat, wordXYN_toNat]; omega

@[simp] theorem opX_wordXYN (g : Nibble) (x y : Reg) (n : Nibble) : opX (wordXYN g x y n) = x := by
  have := x.isLt; have := y.isLt; have := n.isLt
  apply BitVec.eq_of_toNat_eq; rw [opX_toNat, wordXYN_toNat]; omega

@[simp] theorem opY_wordXYN (g : Nibble) (x y : Reg) (n : Nibble) : opY (wordXYN g x y n) = y := by
  have := y.isLt; have := n.isLt
  apply BitVec.eq_of_toNat_eq; rw [opY_toNat, wordXYN_toNat]; omega

@[simp] theorem opN_wordXYN (g : Nibble) (x y : Reg) (n : Nibble) : opN (wordXYN g x y n) = n := by
  have := n.isLt
  apply BitVec.eq_of_toNat_eq; rw [opN_toNat, wordXYN_toNat]; omega

/-! ### A word from its fields, and masked words -/

theorem word_eq_wordXYN (w : Word) : w = wordXYN (opG w) (opX w) (opY w) (opN w) := by
  have := w.isLt
  apply BitVec.eq_of_toNat_eq
  rw [wordXYN_toNat, opG_toNat, opX_toNat, opY_toNat, opN_toNat]
  omega

theorem word_eq_wordXKK (w : Word) : w = wordXKK (opG w) (opX w) (opKK w) := by
  have := w.isLt
  apply BitVec.eq_of_toNat_eq
  rw [wordXKK_toNat, opG_toNat, opX_toNat, opKK_toNat]
  omega

theorem word_eq_wordNNN (w : Word) : w = wordNNN (opG w) (opNNN w) := by
  have := w.isLt
  apply BitVec.eq_of_toNat_eq
  rw [wordNNN_toNat, opG_toNat, opNNN_toNat]
  omega

theorem wordXYN_and (g x y n g' x' y' n' : Nibble) :
    wordXYN g x y n &&& wordXYN g' x' y' n' = wordXYN (g &&& g') (x &&& x') (y &&& y') (n &&& n') := by
  show (g ++ x ++ y ++ n) &&& (g' ++ x' ++ y' ++ n') = (g &&& g') ++ (x &&& x') ++ (y &&& y') ++ (n &&& n')
  rw [BitVec.and_append, BitVec.and_append, BitVec.and_append]

theorem wordXKK_and (g x g' x' : Nibble) (kk kk' : Byte) :
    wordXKK g x kk &&& wordXKK g' x' kk' = wordXKK (g &&& g') (x &&& x') (kk &&& kk') := by
  show (g ++ x ++ kk) &&& (g' ++ x' ++ kk') = (g &&& g') ++ (x &&& x') ++ (kk &&& kk')
  rw [BitVec.and_append, BitVec.and_append]

end Sys2Proof
end

