-- ==== Sys2Proof/Laws/Memory.lean ====
section
/-! SUPPORT. Memory: read after write, and the canonical form, for one byte and for a run of bytes. -/

namespace Sys2Proof.Machine

/-! ### Reading after a write -/

/-- A dropped address reads as its reset contents, every other one as before. -/
theorem Memory.read_drop (m : Memory) (a b : Nat) :
    (m.drop a).read b = if b = a then Memory.blank a else m.read b := by
  induction m with
  | nil => by_cases h : b = a <;> simp [Memory.drop, Memory.read, h]
  | cons c m ih =>
    unfold Memory.drop at ih ⊢
    by_cases hc : c.1 = a
    · by_cases h : b = a
      · simpa [hc, h] using ih
      · simpa [hc, h, Memory.read, Ne.symm h] using ih
    · by_cases h : c.1 = b
      · simp [Memory.read, h, show b ≠ a by omega]
      · simpa [Memory.read, hc, h] using ih

/-- An inserted cell is read at its address, when the memory lists no other there; every other address reads as before. -/
theorem Memory.read_insert (m : Memory) (a b : Nat) (w : Byte) (h : ∀ c ∈ m, c.1 ≠ a) :
    (m.insert a w).read b = if b = a then w else m.read b := by
  induction m with
  | nil => simp [Memory.insert, Memory.read, eq_comm]
  | cons c m ih =>
    have hc : c.1 ≠ a := h c (by simp)
    have ih := ih fun d hd => h d (by simp [hd])
    simp only [Memory.insert]
    split
    · by_cases hb : b = a
      · simp [Memory.read, hb]
      · simp [Memory.read, hb, Ne.symm hb]
    · by_cases hb : c.1 = b
      · simp [Memory.read, hb, show b ≠ a by omega]
      · simp [Memory.read, hb, ih]

/-- No cell is left at a dropped address. -/
theorem Memory.ne_of_mem_drop {m : Memory} {a : Nat} {c : Host.Cell} (h : c ∈ m.drop a) : c.1 ≠ a := by
  simpa using (List.mem_filter.mp h).2

/-- Reading after a write: the written byte at its address, the old byte elsewhere. -/
theorem Memory.read_write (m : Memory) (a b : Nat) (w : Byte) :
    (m.write a w).read b = if b = a then w else m.read b := by
  unfold Memory.write
  split
  next h => rw [Memory.read_drop, h]
  next => rw [Memory.read_insert _ _ _ _ fun _ => Memory.ne_of_mem_drop, Memory.read_drop]; split <;> rfl

/-- Reading after a copy: the copied bytes at their addresses, the old bytes elsewhere. -/
theorem Memory.read_copy (bs : List Byte) : ∀ (m : Memory) (a b : Nat),
    (m.copy a bs).read b = if a ≤ b ∧ b < a + bs.length then bs.getD (b - a) 0#8 else m.read b := by
  induction bs with
  | nil => intro m a b; rw [if_neg (by simp)]; rfl
  | cons c bs ih =>
    intro m a b
    rw [Memory.copy, ih, Memory.read_write]
    rcases Nat.lt_trichotomy b a with hb | hb | hb
    · rw [if_neg (by omega), if_neg (by omega), if_neg (by omega)]
    · subst hb
      rw [if_neg (by omega), if_pos rfl, if_pos (by simp)]
      simp
    · obtain ⟨k, rfl⟩ : ∃ k, b = a + 1 + k := ⟨b - (a + 1), by omega⟩
      by_cases hin : k < bs.length
      · rw [if_pos (by omega), if_pos (by simp only [List.length_cons]; omega),
          show a + 1 + k - (a + 1) = k by omega, show a + 1 + k - a = k + 1 by omega]
        simp
      · rw [if_neg (by omega), if_neg (by omega), if_neg (by simp only [List.length_cons]; omega)]

/-! ### The canonical form -/

/-- What an insertion lists is the new cell or was listed before. -/
theorem Memory.mem_insert {m : Memory} {a : Nat} {w : Byte} {c : Host.Cell} (h : c ∈ m.insert a w) :
    c = (a, w) ∨ c ∈ m := by
  induction m with
  | nil => simpa [Memory.insert] using h
  | cons d m ih =>
    simp only [Memory.insert] at h
    split at h
    · simpa using h
    · rcases List.mem_cons.mp h with rfl | h
      · simp
      · exact (ih h).imp id (List.mem_cons_of_mem d)

/-- Dropping an address keeps the canonical form. -/
theorem Memory.wf_drop {m : Memory} (a : Nat) (hm : m.wf) : (m.drop a).wf :=
  ⟨hm.1.filter _, fun c hc => hm.2 c (List.mem_filter.mp hc).1⟩

/-- An insertion where the memory lists no cell keeps the rising order. -/
theorem Memory.pairwise_insert {m : Memory} {a : Nat} (w : Byte) (hm : m.Pairwise fun c d => c.1 < d.1)
    (h : ∀ c ∈ m, c.1 ≠ a) : (m.insert a w).Pairwise fun c d => c.1 < d.1 := by
  induction m with
  | nil => simp [Memory.insert]
  | cons c m ih =>
    have hlt := (List.pairwise_cons.mp hm).1
    have hc : c.1 ≠ a := h c (by simp)
    simp only [Memory.insert]
    split
    next hac =>
      refine List.pairwise_cons.mpr ⟨fun d hd => ?_, hm⟩
      rcases List.mem_cons.mp hd with rfl | hd
      · exact hac
      · exact Nat.lt_trans hac (hlt d hd)
    next hac =>
      refine List.pairwise_cons.mpr ⟨fun d hd => ?_, ih (List.pairwise_cons.mp hm).2 fun d hd => h d (by simp [hd])⟩
      rcases Memory.mem_insert hd with rfl | hd
      · show c.1 < a
        omega
      · exact hlt d hd

/-- A write inside the address space keeps the canonical form. -/
theorem Memory.wf_write {m : Memory} {a : Nat} {w : Byte} (hm : m.wf) (ha : a ≤ Config.memTop) : (m.write a w).wf := by
  have hd := Memory.wf_drop a hm
  unfold Memory.write
  split
  next => exact hd
  next hw =>
    refine ⟨Memory.pairwise_insert w hd.1 fun _ => Memory.ne_of_mem_drop, fun c hc => ?_⟩
    rcases Memory.mem_insert hc with rfl | hc
    · exact ⟨hw, ha⟩
    · exact hd.2 c hc

/-- Copying bytes inside the address space keeps the canonical form. -/
theorem Memory.wf_copy (bs : List Byte) : ∀ {m : Memory} {a : Nat}, m.wf → bs = [] ∨ a + bs.length ≤ Config.memTop + 1 →
    (m.copy a bs).wf := by
  induction bs with
  | nil => exact fun hm _ => hm
  | cons b bs ih =>
    intro m a hm h
    have hlen : a + (bs.length + 1) ≤ Config.memTop + 1 := by simpa using h
    exact ih (Memory.wf_write hm (by omega)) (.inr (by omega))

/-- The memory after reset is canonical. -/
theorem State.reset_mem_wf : State.reset.mem.wf := ⟨List.Pairwise.nil, by simp [State.reset]⟩

end Sys2Proof.Machine
end

