-- ==== Sys2Proof/Laws/State.lean ====
section
/-! SUPPORT. One lemma per field and update of the state, so that no proof unfolds a record update. -/

namespace Sys2Proof.Machine

variable (s : State)

/-! ### The fault record -/

@[simp] theorem Cause.code_stackOverflow : Cause.stackOverflow.code = 1 := rfl
@[simp] theorem Cause.code_stackUnderflow : Cause.stackUnderflow.code = 2 := rfl
@[simp] theorem Cause.code_invalidDigit (d : Byte) : (Cause.invalidDigit d).code = 3 := rfl
@[simp] theorem Cause.code_memoryOutOfBounds (a : Nat) : (Cause.memoryOutOfBounds a).code = 4 := rfl
@[simp] theorem Cause.code_keyIndexOutOfRange (d : Byte) : (Cause.keyIndexOutOfRange d).code = 5 := rfl
@[simp] theorem Cause.info_stackOverflow : Cause.stackOverflow.info = none := rfl
@[simp] theorem Cause.info_stackUnderflow : Cause.stackUnderflow.info = none := rfl
@[simp] theorem Cause.info_invalidDigit (d : Byte) : (Cause.invalidDigit d).info = some d.toNat := rfl
@[simp] theorem Cause.info_memoryOutOfBounds (a : Nat) : (Cause.memoryOutOfBounds a).info = some a := rfl
@[simp] theorem Cause.info_keyIndexOutOfRange (d : Byte) : (Cause.keyIndexOutOfRange d).info = some d.toNat := rfl
@[simp] theorem FaultRecord.code_mk (c : Cause) (a : Word) (o : Option Word) : (FaultRecord.mk c a o).code = c.code := rfl
@[simp] theorem FaultRecord.info_mk (c : Cause) (a : Word) (o : Option Word) : (FaultRecord.mk c a o).info = c.info := rfl

/-- The code and the info together are the whole cause: nothing of it is lost in what the host reads. -/
theorem Cause.eq_of_code_info {c d : Cause} (hc : c.code = d.code) (hi : c.info = d.info) : c = d := by
  cases c <;> cases d <;> simp_all <;> exact BitVec.eq_of_toNat_eq hi

/-! ### setV -/

@[simp] theorem State.setV_v (x : Reg) (b : Byte) : (s.setV x b).v = s.v.set x.toNat b := rfl
@[simp] theorem State.setV_i (x : Reg) (b : Byte) : (s.setV x b).i = s.i := rfl
@[simp] theorem State.setV_pc (x : Reg) (b : Byte) : (s.setV x b).pc = s.pc := rfl
@[simp] theorem State.setV_stack (x : Reg) (b : Byte) : (s.setV x b).stack = s.stack := rfl
@[simp] theorem State.setV_sp (x : Reg) (b : Byte) : (s.setV x b).sp = s.sp := rfl
@[simp] theorem State.setV_dt (x : Reg) (b : Byte) : (s.setV x b).dt = s.dt := rfl
@[simp] theorem State.setV_st (x : Reg) (b : Byte) : (s.setV x b).st = s.st := rfl
@[simp] theorem State.setV_mem (x : Reg) (b : Byte) : (s.setV x b).mem = s.mem := rfl
@[simp] theorem State.setV_fb (x : Reg) (b : Byte) : (s.setV x b).fb = s.fb := rfl
@[simp] theorem State.setV_keys (x : Reg) (b : Byte) : (s.setV x b).keys = s.keys := rfl
@[simp] theorem State.setV_op (x : Reg) (b : Byte) : (s.setV x b).op = s.op := rfl
@[simp] theorem State.setV_fault (x : Reg) (b : Byte) : (s.setV x b).fault = s.fault := rfl
@[simp] theorem State.setV_pending (x : Reg) (b : Byte) : (s.setV x b).pending = s.pending := rfl
@[simp] theorem State.setV_draws (x : Reg) (b : Byte) : (s.setV x b).draws = s.draws := rfl
@[simp] theorem State.setV_loadOpen (x : Reg) (b : Byte) : (s.setV x b).loadOpen = s.loadOpen := rfl

/-! ### setVFlag -/

@[simp] theorem State.setVFlag_v (x : Reg) (b f : Byte) : (s.setVFlag x b f).v = (s.v.set x.toNat b).set 15 f := rfl
@[simp] theorem State.setVFlag_i (x : Reg) (b f : Byte) : (s.setVFlag x b f).i = s.i := rfl
@[simp] theorem State.setVFlag_pc (x : Reg) (b f : Byte) : (s.setVFlag x b f).pc = s.pc := rfl
@[simp] theorem State.setVFlag_stack (x : Reg) (b f : Byte) : (s.setVFlag x b f).stack = s.stack := rfl
@[simp] theorem State.setVFlag_sp (x : Reg) (b f : Byte) : (s.setVFlag x b f).sp = s.sp := rfl
@[simp] theorem State.setVFlag_dt (x : Reg) (b f : Byte) : (s.setVFlag x b f).dt = s.dt := rfl
@[simp] theorem State.setVFlag_st (x : Reg) (b f : Byte) : (s.setVFlag x b f).st = s.st := rfl
@[simp] theorem State.setVFlag_mem (x : Reg) (b f : Byte) : (s.setVFlag x b f).mem = s.mem := rfl
@[simp] theorem State.setVFlag_fb (x : Reg) (b f : Byte) : (s.setVFlag x b f).fb = s.fb := rfl
@[simp] theorem State.setVFlag_keys (x : Reg) (b f : Byte) : (s.setVFlag x b f).keys = s.keys := rfl
@[simp] theorem State.setVFlag_op (x : Reg) (b f : Byte) : (s.setVFlag x b f).op = s.op := rfl
@[simp] theorem State.setVFlag_fault (x : Reg) (b f : Byte) : (s.setVFlag x b f).fault = s.fault := rfl
@[simp] theorem State.setVFlag_pending (x : Reg) (b f : Byte) : (s.setVFlag x b f).pending = s.pending := rfl
@[simp] theorem State.setVFlag_draws (x : Reg) (b f : Byte) : (s.setVFlag x b f).draws = s.draws := rfl
@[simp] theorem State.setVFlag_loadOpen (x : Reg) (b f : Byte) : (s.setVFlag x b f).loadOpen = s.loadOpen := rfl

/-! ### setVs -/

@[simp] theorem State.setVs_v (bs : List Byte) : (s.setVs bs).v = Vector.ofFn fun k => (bs[k.val]?).getD s.v[k] := rfl
@[simp] theorem State.setVs_i (bs : List Byte) : (s.setVs bs).i = s.i := rfl
@[simp] theorem State.setVs_pc (bs : List Byte) : (s.setVs bs).pc = s.pc := rfl
@[simp] theorem State.setVs_stack (bs : List Byte) : (s.setVs bs).stack = s.stack := rfl
@[simp] theorem State.setVs_sp (bs : List Byte) : (s.setVs bs).sp = s.sp := rfl
@[simp] theorem State.setVs_dt (bs : List Byte) : (s.setVs bs).dt = s.dt := rfl
@[simp] theorem State.setVs_st (bs : List Byte) : (s.setVs bs).st = s.st := rfl
@[simp] theorem State.setVs_mem (bs : List Byte) : (s.setVs bs).mem = s.mem := rfl
@[simp] theorem State.setVs_fb (bs : List Byte) : (s.setVs bs).fb = s.fb := rfl
@[simp] theorem State.setVs_keys (bs : List Byte) : (s.setVs bs).keys = s.keys := rfl
@[simp] theorem State.setVs_op (bs : List Byte) : (s.setVs bs).op = s.op := rfl
@[simp] theorem State.setVs_fault (bs : List Byte) : (s.setVs bs).fault = s.fault := rfl
@[simp] theorem State.setVs_pending (bs : List Byte) : (s.setVs bs).pending = s.pending := rfl
@[simp] theorem State.setVs_draws (bs : List Byte) : (s.setVs bs).draws = s.draws := rfl
@[simp] theorem State.setVs_loadOpen (bs : List Byte) : (s.setVs bs).loadOpen = s.loadOpen := rfl

/-! ### jump -/

@[simp] theorem State.jump_v (w : Word) : (s.jump w).v = s.v := rfl
@[simp] theorem State.jump_i (w : Word) : (s.jump w).i = s.i := rfl
@[simp] theorem State.jump_pc (w : Word) : (s.jump w).pc = w := rfl
@[simp] theorem State.jump_stack (w : Word) : (s.jump w).stack = s.stack := rfl
@[simp] theorem State.jump_sp (w : Word) : (s.jump w).sp = s.sp := rfl
@[simp] theorem State.jump_dt (w : Word) : (s.jump w).dt = s.dt := rfl
@[simp] theorem State.jump_st (w : Word) : (s.jump w).st = s.st := rfl
@[simp] theorem State.jump_mem (w : Word) : (s.jump w).mem = s.mem := rfl
@[simp] theorem State.jump_fb (w : Word) : (s.jump w).fb = s.fb := rfl
@[simp] theorem State.jump_keys (w : Word) : (s.jump w).keys = s.keys := rfl
@[simp] theorem State.jump_op (w : Word) : (s.jump w).op = s.op := rfl
@[simp] theorem State.jump_fault (w : Word) : (s.jump w).fault = s.fault := rfl
@[simp] theorem State.jump_pending (w : Word) : (s.jump w).pending = s.pending := rfl
@[simp] theorem State.jump_draws (w : Word) : (s.jump w).draws = s.draws := rfl
@[simp] theorem State.jump_loadOpen (w : Word) : (s.jump w).loadOpen = s.loadOpen := rfl

/-! ### skipIf -/

@[simp] theorem State.skipIf_v (c : Bool) : (s.skipIf c).v = s.v := rfl
@[simp] theorem State.skipIf_i (c : Bool) : (s.skipIf c).i = s.i := rfl
@[simp] theorem State.skipIf_pc (c : Bool) : (s.skipIf c).pc = if c then s.pc + 2#16 else s.pc := rfl
@[simp] theorem State.skipIf_stack (c : Bool) : (s.skipIf c).stack = s.stack := rfl
@[simp] theorem State.skipIf_sp (c : Bool) : (s.skipIf c).sp = s.sp := rfl
@[simp] theorem State.skipIf_dt (c : Bool) : (s.skipIf c).dt = s.dt := rfl
@[simp] theorem State.skipIf_st (c : Bool) : (s.skipIf c).st = s.st := rfl
@[simp] theorem State.skipIf_mem (c : Bool) : (s.skipIf c).mem = s.mem := rfl
@[simp] theorem State.skipIf_fb (c : Bool) : (s.skipIf c).fb = s.fb := rfl
@[simp] theorem State.skipIf_keys (c : Bool) : (s.skipIf c).keys = s.keys := rfl
@[simp] theorem State.skipIf_op (c : Bool) : (s.skipIf c).op = s.op := rfl
@[simp] theorem State.skipIf_fault (c : Bool) : (s.skipIf c).fault = s.fault := rfl
@[simp] theorem State.skipIf_pending (c : Bool) : (s.skipIf c).pending = s.pending := rfl
@[simp] theorem State.skipIf_draws (c : Bool) : (s.skipIf c).draws = s.draws := rfl
@[simp] theorem State.skipIf_loadOpen (c : Bool) : (s.skipIf c).loadOpen = s.loadOpen := rfl

/-! ### setI -/

@[simp] theorem State.setI_v (w : Word) : (s.setI w).v = s.v := rfl
@[simp] theorem State.setI_i (w : Word) : (s.setI w).i = w := rfl
@[simp] theorem State.setI_pc (w : Word) : (s.setI w).pc = s.pc := rfl
@[simp] theorem State.setI_stack (w : Word) : (s.setI w).stack = s.stack := rfl
@[simp] theorem State.setI_sp (w : Word) : (s.setI w).sp = s.sp := rfl
@[simp] theorem State.setI_dt (w : Word) : (s.setI w).dt = s.dt := rfl
@[simp] theorem State.setI_st (w : Word) : (s.setI w).st = s.st := rfl
@[simp] theorem State.setI_mem (w : Word) : (s.setI w).mem = s.mem := rfl
@[simp] theorem State.setI_fb (w : Word) : (s.setI w).fb = s.fb := rfl
@[simp] theorem State.setI_keys (w : Word) : (s.setI w).keys = s.keys := rfl
@[simp] theorem State.setI_op (w : Word) : (s.setI w).op = s.op := rfl
@[simp] theorem State.setI_fault (w : Word) : (s.setI w).fault = s.fault := rfl
@[simp] theorem State.setI_pending (w : Word) : (s.setI w).pending = s.pending := rfl
@[simp] theorem State.setI_draws (w : Word) : (s.setI w).draws = s.draws := rfl
@[simp] theorem State.setI_loadOpen (w : Word) : (s.setI w).loadOpen = s.loadOpen := rfl

/-! ### setDT -/

@[simp] theorem State.setDT_v (b : Byte) : (s.setDT b).v = s.v := rfl
@[simp] theorem State.setDT_i (b : Byte) : (s.setDT b).i = s.i := rfl
@[simp] theorem State.setDT_pc (b : Byte) : (s.setDT b).pc = s.pc := rfl
@[simp] theorem State.setDT_stack (b : Byte) : (s.setDT b).stack = s.stack := rfl
@[simp] theorem State.setDT_sp (b : Byte) : (s.setDT b).sp = s.sp := rfl
@[simp] theorem State.setDT_dt (b : Byte) : (s.setDT b).dt = b := rfl
@[simp] theorem State.setDT_st (b : Byte) : (s.setDT b).st = s.st := rfl
@[simp] theorem State.setDT_mem (b : Byte) : (s.setDT b).mem = s.mem := rfl
@[simp] theorem State.setDT_fb (b : Byte) : (s.setDT b).fb = s.fb := rfl
@[simp] theorem State.setDT_keys (b : Byte) : (s.setDT b).keys = s.keys := rfl
@[simp] theorem State.setDT_op (b : Byte) : (s.setDT b).op = s.op := rfl
@[simp] theorem State.setDT_fault (b : Byte) : (s.setDT b).fault = s.fault := rfl
@[simp] theorem State.setDT_pending (b : Byte) : (s.setDT b).pending = s.pending := rfl
@[simp] theorem State.setDT_draws (b : Byte) : (s.setDT b).draws = s.draws := rfl
@[simp] theorem State.setDT_loadOpen (b : Byte) : (s.setDT b).loadOpen = s.loadOpen := rfl

/-! ### setST -/

@[simp] theorem State.setST_v (b : Byte) : (s.setST b).v = s.v := rfl
@[simp] theorem State.setST_i (b : Byte) : (s.setST b).i = s.i := rfl
@[simp] theorem State.setST_pc (b : Byte) : (s.setST b).pc = s.pc := rfl
@[simp] theorem State.setST_stack (b : Byte) : (s.setST b).stack = s.stack := rfl
@[simp] theorem State.setST_sp (b : Byte) : (s.setST b).sp = s.sp := rfl
@[simp] theorem State.setST_dt (b : Byte) : (s.setST b).dt = s.dt := rfl
@[simp] theorem State.setST_st (b : Byte) : (s.setST b).st = b := rfl
@[simp] theorem State.setST_mem (b : Byte) : (s.setST b).mem = s.mem := rfl
@[simp] theorem State.setST_fb (b : Byte) : (s.setST b).fb = s.fb := rfl
@[simp] theorem State.setST_keys (b : Byte) : (s.setST b).keys = s.keys := rfl
@[simp] theorem State.setST_op (b : Byte) : (s.setST b).op = s.op := rfl
@[simp] theorem State.setST_fault (b : Byte) : (s.setST b).fault = s.fault := rfl
@[simp] theorem State.setST_pending (b : Byte) : (s.setST b).pending = s.pending := rfl
@[simp] theorem State.setST_draws (b : Byte) : (s.setST b).draws = s.draws := rfl
@[simp] theorem State.setST_loadOpen (b : Byte) : (s.setST b).loadOpen = s.loadOpen := rfl

/-! ### latch -/

@[simp] theorem State.latch_v (w : Word) : (s.latch w).v = s.v := rfl
@[simp] theorem State.latch_i (w : Word) : (s.latch w).i = s.i := rfl
@[simp] theorem State.latch_pc (w : Word) : (s.latch w).pc = s.pc := rfl
@[simp] theorem State.latch_stack (w : Word) : (s.latch w).stack = s.stack := rfl
@[simp] theorem State.latch_sp (w : Word) : (s.latch w).sp = s.sp := rfl
@[simp] theorem State.latch_dt (w : Word) : (s.latch w).dt = s.dt := rfl
@[simp] theorem State.latch_st (w : Word) : (s.latch w).st = s.st := rfl
@[simp] theorem State.latch_mem (w : Word) : (s.latch w).mem = s.mem := rfl
@[simp] theorem State.latch_fb (w : Word) : (s.latch w).fb = s.fb := rfl
@[simp] theorem State.latch_keys (w : Word) : (s.latch w).keys = s.keys := rfl
@[simp] theorem State.latch_op (w : Word) : (s.latch w).op = some w := rfl
@[simp] theorem State.latch_fault (w : Word) : (s.latch w).fault = s.fault := rfl
@[simp] theorem State.latch_pending (w : Word) : (s.latch w).pending = s.pending := rfl
@[simp] theorem State.latch_draws (w : Word) : (s.latch w).draws = s.draws := rfl
@[simp] theorem State.latch_loadOpen (w : Word) : (s.latch w).loadOpen = s.loadOpen := rfl

/-! ### usedInput -/

@[simp] theorem State.usedInput_v : (s.usedInput).v = s.v := rfl
@[simp] theorem State.usedInput_i : (s.usedInput).i = s.i := rfl
@[simp] theorem State.usedInput_pc : (s.usedInput).pc = s.pc := rfl
@[simp] theorem State.usedInput_stack : (s.usedInput).stack = s.stack := rfl
@[simp] theorem State.usedInput_sp : (s.usedInput).sp = s.sp := rfl
@[simp] theorem State.usedInput_dt : (s.usedInput).dt = s.dt := rfl
@[simp] theorem State.usedInput_st : (s.usedInput).st = s.st := rfl
@[simp] theorem State.usedInput_mem : (s.usedInput).mem = s.mem := rfl
@[simp] theorem State.usedInput_fb : (s.usedInput).fb = s.fb := rfl
@[simp] theorem State.usedInput_keys : (s.usedInput).keys = s.keys := rfl
@[simp] theorem State.usedInput_op : (s.usedInput).op = s.op := rfl
@[simp] theorem State.usedInput_fault : (s.usedInput).fault = s.fault := rfl
@[simp] theorem State.usedInput_pending : (s.usedInput).pending = s.pending.tail := rfl
@[simp] theorem State.usedInput_draws : (s.usedInput).draws = s.draws + 1 := rfl
@[simp] theorem State.usedInput_loadOpen : (s.usedInput).loadOpen = false := rfl

/-! ### beginCycle -/

@[simp] theorem State.beginCycle_v : (s.beginCycle).v = s.v := rfl
@[simp] theorem State.beginCycle_i : (s.beginCycle).i = s.i := rfl
@[simp] theorem State.beginCycle_pc : (s.beginCycle).pc = s.pc + 2#16 := rfl
@[simp] theorem State.beginCycle_stack : (s.beginCycle).stack = s.stack := rfl
@[simp] theorem State.beginCycle_sp : (s.beginCycle).sp = s.sp := rfl
@[simp] theorem State.beginCycle_dt : (s.beginCycle).dt = s.dt := rfl
@[simp] theorem State.beginCycle_st : (s.beginCycle).st = s.st := rfl
@[simp] theorem State.beginCycle_mem : (s.beginCycle).mem = s.mem := rfl
@[simp] theorem State.beginCycle_fb : (s.beginCycle).fb = s.fb := rfl
@[simp] theorem State.beginCycle_keys : (s.beginCycle).keys = s.hostInput.keys := rfl
@[simp] theorem State.beginCycle_op : (s.beginCycle).op = s.op := rfl
@[simp] theorem State.beginCycle_fault : (s.beginCycle).fault = s.fault := rfl
@[simp] theorem State.beginCycle_pending : (s.beginCycle).pending = s.pending := rfl
@[simp] theorem State.beginCycle_draws : (s.beginCycle).draws = s.draws := rfl
@[simp] theorem State.beginCycle_loadOpen : (s.beginCycle).loadOpen = s.loadOpen := rfl

/-! ### endCycle -/

@[simp] theorem State.endCycle_v : (s.endCycle).v = s.v := rfl
@[simp] theorem State.endCycle_i : (s.endCycle).i = s.i := rfl
@[simp] theorem State.endCycle_pc : (s.endCycle).pc = s.pc := rfl
@[simp] theorem State.endCycle_stack : (s.endCycle).stack = s.stack := rfl
@[simp] theorem State.endCycle_sp : (s.endCycle).sp = s.sp := rfl
@[simp] theorem State.endCycle_dt : (s.endCycle).dt = tickTimer s.dt := rfl
@[simp] theorem State.endCycle_st : (s.endCycle).st = tickTimer s.st := rfl
@[simp] theorem State.endCycle_mem : (s.endCycle).mem = s.mem := rfl
@[simp] theorem State.endCycle_fb : (s.endCycle).fb = s.fb := rfl
@[simp] theorem State.endCycle_keys : (s.endCycle).keys = s.keys := rfl
@[simp] theorem State.endCycle_op : (s.endCycle).op = none := rfl
@[simp] theorem State.endCycle_fault : (s.endCycle).fault = s.fault := rfl
@[simp] theorem State.endCycle_pending : (s.endCycle).pending = s.pending.tail := rfl
@[simp] theorem State.endCycle_draws : (s.endCycle).draws = s.draws + 1 := rfl
@[simp] theorem State.endCycle_loadOpen : (s.endCycle).loadOpen = false := rfl

/-! ### takeFault -/

@[simp] theorem State.takeFault_v (c : Cause) : (s.takeFault c).v = s.v := rfl
@[simp] theorem State.takeFault_i (c : Cause) : (s.takeFault c).i = s.i := rfl
@[simp] theorem State.takeFault_pc (c : Cause) : (s.takeFault c).pc = s.pc := rfl
@[simp] theorem State.takeFault_stack (c : Cause) : (s.takeFault c).stack = s.stack := rfl
@[simp] theorem State.takeFault_sp (c : Cause) : (s.takeFault c).sp = s.sp := rfl
@[simp] theorem State.takeFault_dt (c : Cause) : (s.takeFault c).dt = s.dt := rfl
@[simp] theorem State.takeFault_st (c : Cause) : (s.takeFault c).st = s.st := rfl
@[simp] theorem State.takeFault_mem (c : Cause) : (s.takeFault c).mem = s.mem := rfl
@[simp] theorem State.takeFault_fb (c : Cause) : (s.takeFault c).fb = s.fb := rfl
@[simp] theorem State.takeFault_keys (c : Cause) : (s.takeFault c).keys = s.keys := rfl
@[simp] theorem State.takeFault_op (c : Cause) : (s.takeFault c).op = none := rfl
@[simp] theorem State.takeFault_fault (c : Cause) : (s.takeFault c).fault = some { cause := c, fpc := s.pc, fop := s.op } := rfl
@[simp] theorem State.takeFault_pending (c : Cause) : (s.takeFault c).pending = s.pending.tail := rfl
@[simp] theorem State.takeFault_draws (c : Cause) : (s.takeFault c).draws = s.draws + 1 := rfl
@[simp] theorem State.takeFault_loadOpen (c : Cause) : (s.takeFault c).loadOpen = false := rfl

end Sys2Proof.Machine
end

