-- ==== Sys2Proof/Laws/Ops.lean ====
section
/-! SUPPORT. What each shared operation can do, said once; proofs cite these and do not unfold the operations. -/

namespace Sys2Proof.Machine

/-! ### General registers -/

theorem State.getV_setV (s : State) (x r : Reg) (b : Byte) :
    (s.setV x b).getV r = if r = x then b else s.getV r := by
  have h : x.toNat = r.toNat ↔ r = x := by rw [eq_comm]; exact BitVec.toNat_inj
  simp only [State.getV, State.setV, Vector.getElem_set, h]

theorem State.getV_setVFlag (s : State) (x r : Reg) (b f : Byte) :
    (s.setVFlag x b f).getV r = if r = regF then f else if r = x then b else s.getV r := by
  rw [State.setVFlag, State.getV_setV, State.getV_setV]

theorem State.getV_setVs (s : State) (bs : List Byte) (r : Reg) :
    (s.setVs bs).getV r = (bs[r.toNat]?).getD (s.getV r) := by
  simp [State.getV, State.setVs]

/-- A state with the same register file has the same registers. -/
theorem State.getV_congr {s t : State} (h : t.v = s.v) (r : Reg) : t.getV r = s.getV r := by simp only [State.getV, h]

@[simp] theorem State.getV_jump (s : State) (w : Word) (r : Reg) : (s.jump w).getV r = s.getV r := rfl
@[simp] theorem State.getV_skipIf (s : State) (c : Bool) (r : Reg) : (s.skipIf c).getV r = s.getV r := rfl
@[simp] theorem State.getV_setI (s : State) (w : Word) (r : Reg) : (s.setI w).getV r = s.getV r := rfl
@[simp] theorem State.getV_setDT (s : State) (b : Byte) (r : Reg) : (s.setDT b).getV r = s.getV r := rfl
@[simp] theorem State.getV_setST (s : State) (b : Byte) (r : Reg) : (s.setST b).getV r = s.getV r := rfl
@[simp] theorem State.getV_latch (s : State) (w : Word) (r : Reg) : (s.latch w).getV r = s.getV r := rfl
@[simp] theorem State.getV_usedInput (s : State) (r : Reg) : s.usedInput.getV r = s.getV r := rfl
@[simp] theorem State.getV_beginCycle (s : State) (r : Reg) : s.beginCycle.getV r = s.getV r := rfl
@[simp] theorem State.getV_endCycle (s : State) (r : Reg) : s.endCycle.getV r = s.getV r := rfl
@[simp] theorem State.getV_takeFault (s : State) (c : Cause) (r : Reg) : (s.takeFault c).getV r = s.getV r := rfl

/-- The start of a cycle does not change the inputs it takes. -/
@[simp] theorem State.hostInput_beginCycle (s : State) : s.beginCycle.hostInput = s.hostInput := rfl

/-! ### Timers and flags -/

theorem tickTimer_toNat (t : Byte) : (tickTimer t).toNat = t.toNat - 1 := by
  unfold tickTimer
  split
  next h => simp [h]
  next h =>
    have : t.toNat ≠ 0 := fun h0 => h (BitVec.eq_of_toNat_eq h0)
    bv_omega

theorem flagByte_toNat (c : Bool) : (flagByte c).toNat = if c then 1 else 0 := by cases c <;> rfl

/-! ### The cycle -/

theorem State.cycle_ok {s u : State} {f : State → Except Cause State} (h : f s.beginCycle = .ok u) :
    s.cycle f = .next u.endCycle := by simp only [State.cycle, h]

theorem State.cycle_error {s : State} {c : Cause} {f : State → Except Cause State} (h : f s.beginCycle = .error c) :
    s.cycle f = .next (s.takeFault c) := by simp only [State.cycle, h]

/-- A cycle always answers a next state: the completed cycle, or the fault taken. -/
theorem State.cycle_cases (s : State) (f : State → Except Cause State) :
    (∃ u, f s.beginCycle = .ok u ∧ s.cycle f = .next u.endCycle) ∨
    (∃ c, f s.beginCycle = .error c ∧ s.cycle f = .next (s.takeFault c)) := by
  cases h : f s.beginCycle with
  | ok u => exact .inl ⟨u, rfl, State.cycle_ok h⟩
  | error c => exact .inr ⟨c, rfl, State.cycle_error h⟩

/-! ### Stack -/

theorem State.push_ok (s : State) (w : Word) (h : s.sp.val < 16) :
    s.push w = .ok { s with stack := s.stack.set s.sp.val w, sp := ⟨s.sp.val + 1, by omega⟩ } := by
  simp only [State.push, h, dite_true]

theorem State.push_full (s : State) (w : Word) (h : ¬ s.sp.val < 16) : s.push w = .error .stackOverflow := by
  simp only [State.push, h, dite_false]

theorem State.pop_ok (s : State) (h : 0 < s.sp.val) :
    s.pop = .ok (s.stack[s.sp.val - 1]'(by omega), { s with sp := ⟨s.sp.val - 1, by omega⟩ }) := by
  simp only [State.pop, h, dite_true]

theorem State.pop_empty (s : State) (h : ¬ 0 < s.sp.val) : s.pop = .error .stackUnderflow := by
  simp only [State.pop, h, dite_false]

/-! ### Memory accesses -/

theorem State.memRead_ok (s : State) {a : Nat} (h : a ≤ 0xFFF) : s.memRead a = .ok (s.mem.read a) := if_pos h

theorem State.memRead_error (s : State) {a : Nat} (h : 0xFFF < a) : s.memRead a = .error (.memoryOutOfBounds a) :=
  if_neg (by show ¬ a ≤ 0xFFF; omega)

theorem State.memWrite_ok (s : State) {a : Nat} (b : Byte) (h : a ≤ 0xFFF) :
    s.memWrite a b = .ok { s with mem := s.mem.write a b } := if_pos h

theorem State.memWrite_error (s : State) {a : Nat} (b : Byte) (h : 0xFFF < a) :
    s.memWrite a b = .error (.memoryOutOfBounds a) := if_neg (by show ¬ a ≤ 0xFFF; omega)

/-- Bytes inside memory are read from their addresses in order. -/
theorem State.loadBytes_ok (s : State) (n : Nat) : ∀ a, n = 0 ∨ a + n ≤ 0x1000 →
    s.loadBytes a n = .ok ((List.range n).map fun k => s.mem.read (a + k)) := by
  induction n with
  | zero => intro a _; rfl
  | succ n ih =>
    intro a h
    simp only [State.loadBytes, s.memRead_ok (show a ≤ 0xFFF by omega), ih (a + 1) (by omega), List.range_succ_eq_map,
      List.map_cons, List.map_map]
    refine congrArg Except.ok (congrArg₂ _ rfl (List.map_congr_left fun k _ => ?_))
    show s.mem.read (a + 1 + k) = s.mem.read (a + (k + 1))
    rw [show a + 1 + k = a + (k + 1) by omega]

/-- Bytes that reach above 0xFFF: the first such address is reported. -/
theorem State.loadBytes_error (s : State) (n : Nat) : ∀ a, n ≠ 0 → 0x1000 < a + n →
    s.loadBytes a n = .error (.memoryOutOfBounds (max a 0x1000)) := by
  induction n with
  | zero => intro a h; exact absurd rfl h
  | succ n ih =>
    intro a _ h
    by_cases ha : a ≤ 0xFFF
    · simp only [State.loadBytes, s.memRead_ok ha, ih (a + 1) (by omega) (by omega),
        show max (a + 1) 0x1000 = max a 0x1000 by omega]
      rfl
    · simp only [State.loadBytes, s.memRead_error (show 0xFFF < a by omega), show max a 0x1000 = a by omega]
      rfl

/-- Bytes inside memory are stored at their addresses in order, and nothing else changes. -/
theorem State.storeBytes_ok (bs : List Byte) : ∀ (s : State) (a : Nat), bs = [] ∨ a + bs.length ≤ 0x1000 →
    s.storeBytes a bs = .ok { s with mem := s.mem.copy a bs } := by
  induction bs with
  | nil => intro s a _; rfl
  | cons b bs ih =>
    intro s a h
    have hlen : a + (bs.length + 1) ≤ 0x1000 := by simpa using h
    simp only [State.storeBytes, s.memWrite_ok b (show a ≤ 0xFFF by omega)]
    exact ih _ (a + 1) (.inr (by omega))

/-- Bytes that reach above 0xFFF: the first such address is reported. -/
theorem State.storeBytes_error (bs : List Byte) : ∀ (s : State) (a : Nat), bs ≠ [] → 0x1000 < a + bs.length →
    s.storeBytes a bs = .error (.memoryOutOfBounds (max a 0x1000)) := by
  induction bs with
  | nil => intro s a h; exact absurd rfl h
  | cons b bs ih =>
    intro s a _ h
    have hlen : 0x1000 < a + (bs.length + 1) := by simpa using h
    by_cases ha : a ≤ 0xFFF
    · simp only [State.storeBytes, s.memWrite_ok b ha]
      have hne : bs ≠ [] := by rintro rfl; simp at hlen; omega
      refine (ih _ (a + 1) hne (by omega)).trans ?_
      rw [show max (a + 1) 0x1000 = max a 0x1000 by omega]
    · simp only [State.storeBytes, s.memWrite_error b (show 0xFFF < a by omega), show max a 0x1000 = a by omega]
      rfl

/-! ### The fetch -/

theorem joinBytes_toNat (hi lo : Byte) : (joinBytes hi lo).toNat = 256 * hi.toNat + lo.toNat := by
  have h := Nat.shiftLeft_add_eq_or_of_lt lo.isLt hi.toNat
  rw [joinBytes, BitVec.toNat_append, ← h, Nat.shiftLeft_eq, Nat.mul_comm]

theorem State.fetch_ok (s : State) (h : s.pc.toNat < 0xFFF) :
    s.fetch = .ok (joinBytes (s.mem.read s.pc.toNat) (s.mem.read (s.pc.toNat + 1))) := by
  simp only [State.fetch, s.memRead_ok (show s.pc.toNat ≤ 0xFFF by omega),
    s.memRead_ok (show s.pc.toNat + 1 ≤ 0xFFF by omega)]
  rfl

theorem State.fetch_error (s : State) (h : 0xFFE < s.pc.toNat) :
    s.fetch = .error (.memoryOutOfBounds (max s.pc.toNat 0x1000)) := by
  by_cases hp : s.pc.toNat ≤ 0xFFF
  · simp only [State.fetch, s.memRead_ok hp, s.memRead_error (show 0xFFF < s.pc.toNat + 1 by omega),
      show max s.pc.toNat 0x1000 = s.pc.toNat + 1 by omega]
    rfl
  · simp only [State.fetch, s.memRead_error (show 0xFFF < s.pc.toNat by omega),
      show max s.pc.toNat 0x1000 = s.pc.toNat by omega]
    rfl

/-! ### The step -/

theorem step_faulted {s : State} {r : FaultRecord} (h : s.fault = some r) : step s = .fault (.halted r) := by
  simp only [step, h]

theorem step_fetch_error {s : State} {c : Cause} (h : s.fault = none) (hf : s.fetch = .error c) :
    step s = .next (s.takeFetchFault c) := by simp only [step, h, hf]

theorem step_decoded {s : State} {w : Word} (h : s.fault = none) (hf : s.fetch = .ok w) :
    step s = exec (decode w) (s.latch w) := by simp only [step, h, hf]

/-! ### Operand forms -/

theorem State.digit_ok (s : State) {x : Reg} (h : (s.getV x).toNat ≤ 15) : s.digit x = .ok (s.getV x).toNat := if_pos h

theorem State.digit_error (s : State) {x : Reg} (h : ¬ (s.getV x).toNat ≤ 15) :
    s.digit x = .error (.invalidDigit (s.getV x)) := if_neg h

theorem State.keyOf_ok (s : State) {x : Reg} {k : Fin 16} (h : (s.getV x).toNat = k.val) :
    s.keyOf x = .ok s.keys[k] := by
  simp only [State.keyOf, h, k.isLt, dite_true]
  rfl

theorem State.keyOf_error (s : State) {x : Reg} (h : 15 < (s.getV x).toNat) :
    s.keyOf x = .error (.keyIndexOutOfRange (s.getV x)) := by
  simp only [State.keyOf, show ¬ (s.getV x).toNat < 16 by omega, dite_false]

/-- The scan finds the first pressed key of the list. -/
theorem State.scanKeys_eq_find (s : State) (ks : List (Fin 16)) : s.scanKeys ks = ks.find? fun k => s.keys[k] := by
  induction ks with
  | nil => rfl
  | cons k ks ih => simp only [State.scanKeys, ih, List.find?_cons]; cases s.keys[k] <;> rfl

/-- The keys are scanned in the order of `List.finRange`. -/
theorem State.pressedKey_eq_find (s : State) : s.pressedKey = (List.finRange 16).find? fun k => s.keys[k] := by
  rw [State.pressedKey, State.scanKeys_eq_find]
  rfl

/-- With no key pressed the scan finds none. -/
theorem State.pressedKey_eq_none (s : State) (h : ∀ k : Fin 16, s.keys[k] = false) : s.pressedKey = none := by
  rw [State.pressedKey_eq_find, List.find?_eq_none]
  intro k _
  simp only [h k, Bool.false_eq_true, not_false_eq_true]

/-- The scan finds the lowest pressed key. -/
theorem State.pressedKey_eq_some (s : State) {k : Fin 16} (h : s.keys[k] = true)
    (hlow : ∀ j : Fin 16, j < k → s.keys[j] = false) : s.pressedKey = some k := by
  rw [State.pressedKey_eq_find, List.find?_eq_some_iff_getElem]
  refine ⟨h, k.val, by simp, by simp, fun j hj => ?_⟩
  have := hlow ⟨j, by omega⟩ (by simpa [Fin.lt_def] using hj)
  simpa using this

theorem State.regsUpTo_length (s : State) (x : Reg) : (s.regsUpTo x).length = x.toNat + 1 := by
  have := x.isLt
  simp only [State.regsUpTo, List.length_take, Vector.length_toList]
  omega

theorem State.regsUpTo_getD (s : State) {x r : Reg} (h : r ≤ x) : (s.regsUpTo x).getD r.toNat 0#8 = s.getV r := by
  have hr : r.toNat ≤ x.toNat := h
  have hx := r.isLt
  simp only [State.regsUpTo, State.getV, List.getD_eq_getElem?_getD]
  rw [List.getElem?_take_of_lt (by omega)]
  simp [hx]

end Sys2Proof.Machine
end

