-- ==== Sys2Proof/Laws/Frames.lean ====
section
/-! SUPPORT. What the two ends of a cycle leave, in the terms of Safety.lean: a fault taken, and a completed cycle whose
execute step changed few fields. -/

namespace Sys2Proof.Machine

/-- Taking a fault leaves what R201 says, whatever the instruction. -/
theorem State.faultTaken_takeFault (s : State) (c : Cause) : s.FaultTaken (s.takeFault c) c s.op :=
  ⟨rfl, rfl, fun _ _ => rfl, rfl, ⟨rfl, fun _ => rfl⟩, fun _ => rfl, fun _ _ => rfl, rfl, rfl, rfl, rfl, rfl, rfl, rfl⟩

/-- A fault of the fetch leaves the same, with no opcode recorded. -/
theorem State.faultTaken_takeFetchFault (s : State) (c : Cause) : s.FaultTaken (s.takeFetchFault c) c none :=
  ⟨rfl, rfl, fun _ _ => rfl, rfl, ⟨rfl, fun _ => rfl⟩, fun _ => rfl, fun _ _ => rfl, rfl, rfl, rfl, rfl, rfl, rfl, rfl⟩

/-- The end of a cycle completes it, when the execute step left the fault state, the keypad and the host's inputs. -/
theorem State.completed_endCycle {s u : State} (hf : u.fault = s.fault) (hk : u.keys = s.hostInput.keys)
    (hp : u.pending = s.pending) (hd : u.draws = s.draws) : s.Completed u.endCycle := by
  refine ⟨hf, hk, rfl, ?_, ?_, rfl⟩ <;> simp [hp, hd]

/-- The end of a cycle ticks both timers, when the execute step left them. -/
theorem State.ticked_endCycle {s u : State} (hd : u.dt = s.dt) (hs : u.st = s.st) : s.Ticked u.endCycle := by
  constructor <;> simp [tickTimer_toNat, hd, hs]

/-- A cycle whose execute step changed general registers and the pc alone; the opcode is gone at the end anyway. -/
theorem State.onlyVAndPc_endCycle {s u : State} (h : u = { s.beginCycle with v := u.v, pc := u.pc, op := u.op }) :
    s.OnlyVAndPc u.endCycle := by
  rw [h]
  exact ⟨State.completed_endCycle rfl rfl rfl rfl, State.ticked_endCycle rfl rfl, rfl, ⟨rfl, fun _ => rfl⟩, fun _ => rfl,
    fun _ _ => rfl⟩

/-- A cycle whose execute step changed I alone; the opcode is gone at the end anyway. -/
theorem State.onlyIAndPc_endCycle {s u : State} (h : u = { s.beginCycle with i := u.i, pc := u.pc, op := u.op }) :
    s.OnlyIAndPc u.endCycle := by
  rw [h]
  exact ⟨State.completed_endCycle rfl rfl rfl rfl, State.ticked_endCycle rfl rfl, fun _ _ => rfl, ⟨rfl, fun _ => rfl⟩,
    fun _ => rfl, fun _ _ => rfl⟩

end Sys2Proof.Machine
end

