-- ==== Sys2Proof/Laws/Exec.lean ====
section
/-! SUPPORT. What `exec` answers for each instruction, one lemma per outcome: the end of a cycle whose execute step is
written out over the shared operations, or the fault taken. No later proof unfolds a meaning. -/

namespace Sys2Proof.Machine

variable (s : State)

/-! ### No-ops and display -/

theorem exec_sysNop (nnn : Addr) : exec (.sysNop nnn) s = .next s.beginCycle.endCycle := rfl
theorem exec_nop8 (n : Nibble) : exec (.nop8 n) s = .next s.beginCycle.endCycle := rfl
theorem exec_nopE (n : Nibble) : exec (.nopE n) s = .next s.beginCycle.endCycle := rfl
theorem exec_nopF (kk : Byte) : exec (.nopF kk) s = .next s.beginCycle.endCycle := rfl

theorem exec_cls : exec .cls s = .next { s.beginCycle with fb := Framebuffer.clear }.endCycle := rfl

/-- The sprite bytes DRW reads: `n` bytes from I on. -/
def State.spriteBytes (n : Nibble) : List Byte := (List.range n.toNat).map fun k => s.mem.read (s.i.toNat + k)

/-- The canvas DRW leaves. -/
def State.drawn (x y : Reg) (n : Nibble) : Canvas :=
  Canvas.plotRows { fb := s.fb, hit := false } (originX (s.getV x)) (originY (s.getV y)) (s.spriteBytes n)

variable {s}

theorem exec_drw (x y : Reg) {n : Nibble} (h : n.toNat = 0 ∨ s.i.toNat + n.toNat ≤ 0x1000) :
    exec (.drw x y n) s =
      .next ({ s.beginCycle with fb := (s.drawn x y n).fb }.setV regF (collisionFlag (s.drawn x y n))).endCycle := by
  change execDrw x y n s = _
  unfold execDrw
  refine State.cycle_ok ?_
  show (s.beginCycle.loadBytes s.i.toNat n.toNat >>= _) = _
  rw [s.beginCycle.loadBytes_ok _ _ h]
  rfl

theorem exec_drw_fault (x y : Reg) {n : Nibble} (hn : n.toNat ≠ 0) (h : 0x1000 < s.i.toNat + n.toNat) :
    exec (.drw x y n) s = .next (s.takeFault (.memoryOutOfBounds (max s.i.toNat 0x1000))) := by
  change execDrw x y n s = _
  unfold execDrw
  refine State.cycle_error ?_
  show (s.beginCycle.loadBytes s.i.toNat n.toNat >>= _) = _
  rw [s.beginCycle.loadBytes_error _ _ hn h]
  rfl

/-! ### Control flow -/

theorem exec_jp (nnn : Addr) : exec (.jp nnn) s = .next (s.beginCycle.jump (nnn.setWidth 16)).endCycle := rfl

theorem exec_jpV0 (nnn : Addr) : exec (.jpV0 nnn) s =
    .next (s.beginCycle.jump (nnn.setWidth 16 + (s.getV 0#4).setWidth 16)).endCycle := rfl

theorem exec_call (nnn : Addr) (h : s.sp.val < 16) : exec (.call nnn) s =
    .next (State.jump { s.beginCycle with
      stack := s.stack.set s.sp.val (s.pc + 2#16), sp := ⟨s.sp.val + 1, by omega⟩ } (nnn.setWidth 16)).endCycle := by
  change execCall nnn s = _
  unfold execCall
  refine State.cycle_ok ?_
  show (s.beginCycle.push (s.pc + 2#16) >>= _) = _
  rw [s.beginCycle.push_ok _ h]
  rfl

theorem exec_call_fault (nnn : Addr) (h : ¬ s.sp.val < 16) :
    exec (.call nnn) s = .next (s.takeFault .stackOverflow) := by
  change execCall nnn s = _
  unfold execCall
  refine State.cycle_error ?_
  show (s.beginCycle.push (s.pc + 2#16) >>= _) = _
  rw [s.beginCycle.push_full _ h]
  rfl

theorem exec_ret (h : 0 < s.sp.val) : exec .ret s =
    .next (State.jump { s.beginCycle with sp := ⟨s.sp.val - 1, by omega⟩ }
      (s.stack[s.sp.val - 1]'(by omega))).endCycle := by
  change execRet s = _
  unfold execRet
  refine State.cycle_ok ?_
  show (s.beginCycle.pop >>= _) = _
  rw [s.beginCycle.pop_ok h]
  rfl

theorem exec_ret_fault (h : ¬ 0 < s.sp.val) : exec .ret s = .next (s.takeFault .stackUnderflow) := by
  change execRet s = _
  unfold execRet
  refine State.cycle_error ?_
  show (s.beginCycle.pop >>= _) = _
  rw [s.beginCycle.pop_empty h]
  rfl

theorem exec_seImm (x : Reg) (kk : Byte) :
    exec (.seImm x kk) s = .next (s.beginCycle.skipIf (s.getV x == kk)).endCycle := rfl
theorem exec_sneImm (x : Reg) (kk : Byte) :
    exec (.sneImm x kk) s = .next (s.beginCycle.skipIf (s.getV x != kk)).endCycle := rfl
theorem exec_seReg (x y : Reg) :
    exec (.seReg x y) s = .next (s.beginCycle.skipIf (s.getV x == s.getV y)).endCycle := rfl
theorem exec_sneReg (x y : Reg) :
    exec (.sneReg x y) s = .next (s.beginCycle.skipIf (s.getV x != s.getV y)).endCycle := rfl

/-! ### Registers and ALU -/

theorem exec_ldImm (x : Reg) (kk : Byte) : exec (.ldImm x kk) s = .next (s.beginCycle.setV x kk).endCycle := rfl
theorem exec_addImm (x : Reg) (kk : Byte) :
    exec (.addImm x kk) s = .next (s.beginCycle.setV x (s.getV x + kk)).endCycle := rfl
theorem exec_ldReg (x y : Reg) : exec (.ldReg x y) s = .next (s.beginCycle.setV x (s.getV y)).endCycle := rfl
theorem exec_orReg (x y : Reg) :
    exec (.orReg x y) s = .next (s.beginCycle.setV x (s.getV x ||| s.getV y)).endCycle := rfl
theorem exec_andReg (x y : Reg) :
    exec (.andReg x y) s = .next (s.beginCycle.setV x (s.getV x &&& s.getV y)).endCycle := rfl
theorem exec_xorReg (x y : Reg) :
    exec (.xorReg x y) s = .next (s.beginCycle.setV x (s.getV x ^^^ s.getV y)).endCycle := rfl
theorem exec_addReg (x y : Reg) : exec (.addReg x y) s =
    .next (s.beginCycle.setVFlag x (s.getV x + s.getV y) (carryFlag (s.getV x) (s.getV y))).endCycle := rfl
theorem exec_sub (x y : Reg) : exec (.sub x y) s =
    .next (s.beginCycle.setVFlag x (s.getV x - s.getV y) (notBorrowFlag (s.getV x) (s.getV y))).endCycle := rfl
theorem exec_subn (x y : Reg) : exec (.subn x y) s =
    .next (s.beginCycle.setVFlag x (s.getV y - s.getV x) (notBorrowFlag (s.getV y) (s.getV x))).endCycle := rfl
theorem exec_shr (x : Reg) :
    exec (.shr x) s = .next (s.beginCycle.setVFlag x (s.getV x >>> 1) (shrFlag (s.getV x))).endCycle := rfl
theorem exec_shl (x : Reg) :
    exec (.shl x) s = .next (s.beginCycle.setVFlag x (s.getV x <<< 1) (shlFlag (s.getV x))).endCycle := rfl
theorem exec_rnd (x : Reg) (kk : Byte) :
    exec (.rnd x kk) s = .next (s.beginCycle.setV x (s.hostInput.rand &&& kk)).endCycle := rfl

/-! ### Index register and memory -/

theorem exec_ldI (nnn : Addr) : exec (.ldI nnn) s = .next (s.beginCycle.setI (nnn.setWidth 16)).endCycle := rfl
theorem exec_addIVx (x : Reg) :
    exec (.addIVx x) s = .next (s.beginCycle.setI (s.i + (s.getV x).setWidth 16)).endCycle := rfl

theorem exec_ldFVx {x : Reg} (h : (s.getV x).toNat ≤ 15) :
    exec (.ldFVx x) s = .next (s.beginCycle.setI (glyphAddr (s.getV x).toNat)).endCycle := by
  change execLdFVx x s = _
  unfold execLdFVx
  refine State.cycle_ok ?_
  show (s.beginCycle.digit x >>= _) = _
  rw [s.beginCycle.digit_ok h]
  rfl

theorem exec_ldFVx_fault {x : Reg} (h : ¬ (s.getV x).toNat ≤ 15) :
    exec (.ldFVx x) s = .next (s.takeFault (.invalidDigit (s.getV x))) := by
  change execLdFVx x s = _
  unfold execLdFVx
  refine State.cycle_error ?_
  show (s.beginCycle.digit x >>= _) = _
  rw [s.beginCycle.digit_error h]
  rfl

theorem exec_ldBVx (x : Reg) (h : s.i.toNat + 3 ≤ 0x1000) : exec (.ldBVx x) s =
    .next { s.beginCycle with mem := s.mem.copy s.i.toNat (bcdDigits (s.getV x)) }.endCycle := by
  change execLdBVx x s = _
  unfold execLdBVx
  exact State.cycle_ok (s.beginCycle.storeBytes_ok _ s.i.toNat (.inr h))

theorem exec_ldBVx_fault (x : Reg) (h : 0x1000 < s.i.toNat + 3) :
    exec (.ldBVx x) s = .next (s.takeFault (.memoryOutOfBounds (max s.i.toNat 0x1000))) := by
  change execLdBVx x s = _
  unfold execLdBVx
  exact State.cycle_error (s.beginCycle.storeBytes_error _ s.i.toNat (by simp [bcdDigits]) h)

theorem exec_ldMemVx {x : Reg} (h : s.i.toNat + (x.toNat + 1) ≤ 0x1000) : exec (.ldMemVx x) s =
    .next { s.beginCycle with mem := s.mem.copy s.i.toNat (s.regsUpTo x) }.endCycle := by
  change execLdMemVx x s = _
  unfold execLdMemVx
  exact State.cycle_ok (s.beginCycle.storeBytes_ok _ s.i.toNat (.inr (s.regsUpTo_length x ▸ h)))

theorem exec_ldMemVx_fault {x : Reg} (h : 0x1000 < s.i.toNat + (x.toNat + 1)) :
    exec (.ldMemVx x) s = .next (s.takeFault (.memoryOutOfBounds (max s.i.toNat 0x1000))) := by
  change execLdMemVx x s = _
  unfold execLdMemVx
  have hlen := s.regsUpTo_length x
  refine State.cycle_error (s.beginCycle.storeBytes_error (s.regsUpTo x) s.i.toNat ?_ (hlen ▸ h))
  intro h0
  simp [h0] at hlen

/-- The bytes LD Vx,[I] reads: one for each of V0..Vx, from I on. -/
def State.loadedBytes (s : State) (x : Reg) : List Byte :=
  (List.range (x.toNat + 1)).map fun k => s.mem.read (s.i.toNat + k)

theorem exec_ldVxMem {x : Reg} (h : s.i.toNat + (x.toNat + 1) ≤ 0x1000) :
    exec (.ldVxMem x) s = .next (s.beginCycle.setVs (s.loadedBytes x)).endCycle := by
  change execLdVxMem x s = _
  unfold execLdVxMem
  refine State.cycle_ok ?_
  show (s.beginCycle.loadBytes s.i.toNat (x.toNat + 1) >>= _) = _
  rw [s.beginCycle.loadBytes_ok _ _ (.inr h)]
  rfl

theorem exec_ldVxMem_fault {x : Reg} (h : 0x1000 < s.i.toNat + (x.toNat + 1)) :
    exec (.ldVxMem x) s = .next (s.takeFault (.memoryOutOfBounds (max s.i.toNat 0x1000))) := by
  change execLdVxMem x s = _
  unfold execLdVxMem
  refine State.cycle_error ?_
  show (s.beginCycle.loadBytes s.i.toNat (x.toNat + 1) >>= _) = _
  rw [s.beginCycle.loadBytes_error _ _ (Nat.succ_ne_zero _) h]
  rfl

/-! ### Keypad and timers -/

theorem exec_skp {x : Reg} {k : Fin 16} (h : (s.getV x).toNat = k.val) :
    exec (.skp x) s = .next (s.beginCycle.skipIf s.hostInput.keys[k]).endCycle := by
  change execSkp x s = _
  unfold execSkp
  refine State.cycle_ok ?_
  show (s.beginCycle.keyOf x >>= _) = _
  rw [s.beginCycle.keyOf_ok h]
  rfl

theorem exec_skp_fault {x : Reg} (h : 15 < (s.getV x).toNat) :
    exec (.skp x) s = .next (s.takeFault (.keyIndexOutOfRange (s.getV x))) := by
  change execSkp x s = _
  unfold execSkp
  refine State.cycle_error ?_
  show (s.beginCycle.keyOf x >>= _) = _
  rw [s.beginCycle.keyOf_error h]
  rfl

theorem exec_sknp {x : Reg} {k : Fin 16} (h : (s.getV x).toNat = k.val) :
    exec (.sknp x) s = .next (s.beginCycle.skipIf (!s.hostInput.keys[k])).endCycle := by
  change execSknp x s = _
  unfold execSknp
  refine State.cycle_ok ?_
  show (s.beginCycle.keyOf x >>= _) = _
  rw [s.beginCycle.keyOf_ok h]
  rfl

theorem exec_sknp_fault {x : Reg} (h : 15 < (s.getV x).toNat) :
    exec (.sknp x) s = .next (s.takeFault (.keyIndexOutOfRange (s.getV x))) := by
  change execSknp x s = _
  unfold execSknp
  refine State.cycle_error ?_
  show (s.beginCycle.keyOf x >>= _) = _
  rw [s.beginCycle.keyOf_error h]
  rfl

theorem exec_ldVxDt (x : Reg) : exec (.ldVxDt x) s = .next (s.beginCycle.setV x s.dt).endCycle := rfl

/-- LD Vx,K in one equation, with the rewind written as the spec writes it. -/
theorem exec_ldVxK (x : Reg) : exec (.ldVxK x) s = .next ((s.beginCycle.setV x (match s.beginCycle.pressedKey with
      | some k => BitVec.ofNat 8 k.val
      | none => s.getV x)).jump (match s.beginCycle.pressedKey with
      | some _ => s.pc + 2#16
      | none => s.pc + 2#16 - 2#16)).endCycle := rfl

/-- With a key pressed, LD Vx,K writes its number. -/
theorem exec_ldVxK_pressed (x : Reg) {k : Fin 16} (h : s.beginCycle.pressedKey = some k) :
    exec (.ldVxK x) s = .next (s.beginCycle.setV x (BitVec.ofNat 8 k.val)).endCycle := by
  rw [exec_ldVxK, h]
  rfl

/-- With no key pressed, LD Vx,K leaves the register and rewinds the pc to itself. -/
theorem exec_ldVxK_waiting (x : Reg) (h : s.beginCycle.pressedKey = none) :
    exec (.ldVxK x) s = .next (s.beginCycle.jump s.pc).endCycle := by
  have hv : s.v.set x.toNat s.v[x.toNat] = s.v := Vector.set_getElem_self _
  have hpc : s.pc + 2#16 - 2#16 = s.pc := BitVec.add_sub_cancel ..
  rw [exec_ldVxK, h]
  simp only [State.setV, State.getV, State.jump, State.beginCycle, hv, hpc]

theorem exec_ldDtVx (x : Reg) : exec (.ldDtVx x) s = .next (s.beginCycle.setDT (s.getV x)).endCycle := rfl
theorem exec_ldStVx (x : Reg) : exec (.ldStVx x) s = .next (s.beginCycle.setST (s.getV x)).endCycle := rfl

/-! ### All instructions at once -/

/-- The state the execute step of an instruction leaves, when it does not fault. -/
def State.effect (s : State) : Instr → State
  | .cls => { s.beginCycle with fb := Framebuffer.clear }
  | .ret => State.jump { s.beginCycle with sp := ⟨s.sp.val - 1, by omega⟩ } (s.stack.toList.getD (s.sp.val - 1) 0#16)
  | .jp nnn => s.beginCycle.jump (nnn.setWidth 16)
  | .call nnn => State.jump { s.beginCycle with
      stack := s.stack.setIfInBounds s.sp.val (s.pc + 2#16), sp := ⟨min (s.sp.val + 1) 16, by omega⟩ } (nnn.setWidth 16)
  | .seImm x kk => s.beginCycle.skipIf (s.getV x == kk)
  | .sneImm x kk => s.beginCycle.skipIf (s.getV x != kk)
  | .seReg x y => s.beginCycle.skipIf (s.getV x == s.getV y)
  | .sneReg x y => s.beginCycle.skipIf (s.getV x != s.getV y)
  | .jpV0 nnn => s.beginCycle.jump (nnn.setWidth 16 + (s.getV 0#4).setWidth 16)
  | .ldImm x kk => s.beginCycle.setV x kk
  | .addImm x kk => s.beginCycle.setV x (s.getV x + kk)
  | .ldReg x y => s.beginCycle.setV x (s.getV y)
  | .orReg x y => s.beginCycle.setV x (s.getV x ||| s.getV y)
  | .andReg x y => s.beginCycle.setV x (s.getV x &&& s.getV y)
  | .xorReg x y => s.beginCycle.setV x (s.getV x ^^^ s.getV y)
  | .addReg x y => s.beginCycle.setVFlag x (s.getV x + s.getV y) (carryFlag (s.getV x) (s.getV y))
  | .sub x y => s.beginCycle.setVFlag x (s.getV x - s.getV y) (notBorrowFlag (s.getV x) (s.getV y))
  | .shr x => s.beginCycle.setVFlag x (s.getV x >>> 1) (shrFlag (s.getV x))
  | .subn x y => s.beginCycle.setVFlag x (s.getV y - s.getV x) (notBorrowFlag (s.getV y) (s.getV x))
  | .shl x => s.beginCycle.setVFlag x (s.getV x <<< 1) (shlFlag (s.getV x))
  | .rnd x kk => s.beginCycle.setV x (s.hostInput.rand &&& kk)
  | .drw x y n => { s.beginCycle with fb := (s.drawn x y n).fb }.setV regF (collisionFlag (s.drawn x y n))
  | .skp x => s.beginCycle.skipIf (s.hostInput.keys.toList.getD (s.getV x).toNat false)
  | .sknp x => s.beginCycle.skipIf (!s.hostInput.keys.toList.getD (s.getV x).toNat false)
  | .ldVxDt x => s.beginCycle.setV x s.dt
  | .ldVxK x => (s.beginCycle.setV x (match s.beginCycle.pressedKey with
      | some k => BitVec.ofNat 8 k.val
      | none => s.getV x)).jump (match s.beginCycle.pressedKey with
      | some _ => s.pc + 2#16
      | none => s.pc)
  | .ldDtVx x => s.beginCycle.setDT (s.getV x)
  | .ldStVx x => s.beginCycle.setST (s.getV x)
  | .addIVx x => s.beginCycle.setI (s.i + (s.getV x).setWidth 16)
  | .ldI nnn => s.beginCycle.setI (nnn.setWidth 16)
  | .ldFVx x => s.beginCycle.setI (glyphAddr (s.getV x).toNat)
  | .ldBVx x => { s.beginCycle with mem := s.mem.copy s.i.toNat (bcdDigits (s.getV x)) }
  | .ldMemVx x => { s.beginCycle with mem := s.mem.copy s.i.toNat (s.regsUpTo x) }
  | .ldVxMem x => s.beginCycle.setVs (s.loadedBytes x)
  | .sysNop _ | .nop8 _ | .nopE _ | .nopF _ => s.beginCycle

/-- An instruction meets no fault condition when none of the five applies. -/
theorem State.not_causeFits {s : State} {i : Instr} (hcall : ∀ nnn, i = .call nnn → s.sp.val ≠ 16)
    (hret : i = .ret → s.sp.val ≠ 0) (hdigit : ∀ x, i = .ldFVx x → (s.getV x).toNat ≤ 15)
    (hkey : ∀ x, i = .skp x ∨ i = .sknp x → (s.getV x).toNat ≤ 15)
    (hmem : i.readLen + i.storeLen = 0 ∨ s.i.toNat + (i.readLen + i.storeLen) ≤ 0x1000) (c : Cause) :
    ¬ s.CauseFits i c := by
  intro h
  cases c with
  | stackOverflow => obtain ⟨⟨nnn, hi⟩, hsp⟩ := h; exact hcall nnn hi (congrArg Fin.val hsp)
  | stackUnderflow => exact hret h.1 (congrArg Fin.val h.2)
  | invalidDigit d => obtain ⟨x, hi, rfl, hd⟩ := h; exact absurd (hdigit x hi) (by omega)
  | memoryOutOfBounds a => have h1 := h.1; have h2 := h.2; omega
  | keyIndexOutOfRange d => obtain ⟨x, hi, rfl, hd⟩ := h; exact absurd (hkey x hi) (by omega)

/-- Every instruction either meets no fault condition and completes with its effect, or meets one and takes that fault. -/
theorem exec_cases (i : Instr) (s : State) :
    ((∀ c, ¬ s.CauseFits i c) ∧ exec i s = .next (s.effect i).endCycle) ∨
    ∃ c, s.CauseFits i c ∧ exec i s = .next (s.takeFault c) := by
  cases i with
  | call nnn =>
    by_cases h : s.sp.val < 16
    · refine .inl ⟨State.not_causeFits (fun _ _ => by omega) nofun nofun (by simp) (.inl rfl), ?_⟩
      rw [exec_call nnn h]
      simp [State.effect, Vector.setIfInBounds, Vector.set, Array.setIfInBounds, h]
    · exact .inr ⟨.stackOverflow, ⟨⟨nnn, rfl⟩, Fin.ext (by show s.sp.val = 16; omega)⟩, exec_call_fault nnn h⟩
  | ret =>
    by_cases h : 0 < s.sp.val
    · refine .inl ⟨State.not_causeFits nofun (fun _ => by omega) nofun (by simp) (.inl rfl), ?_⟩
      have hk : s.sp.val - 1 < 16 := by omega
      rw [exec_ret h]
      simp [State.effect, hk]
    · exact .inr ⟨.stackUnderflow, ⟨rfl, Fin.ext (by show s.sp.val = 0; omega)⟩, exec_ret_fault h⟩
  | drw x y n =>
    by_cases h : n.toNat = 0 ∨ s.i.toNat + n.toNat ≤ 0x1000
    · exact .inl ⟨State.not_causeFits nofun nofun nofun (by simp) h, exec_drw x y h⟩
    · exact .inr ⟨.memoryOutOfBounds (max s.i.toNat 0x1000), ⟨rfl, by show _ < _ + (n.toNat + 0); omega⟩,
        exec_drw_fault x y (by omega) (by omega)⟩
  | ldFVx x =>
    by_cases h : (s.getV x).toNat ≤ 15
    · exact .inl ⟨State.not_causeFits nofun nofun (fun _ hx => by cases hx; exact h) (by simp) (.inl rfl), exec_ldFVx h⟩
    · exact .inr ⟨.invalidDigit (s.getV x), ⟨x, rfl, rfl, by omega⟩, exec_ldFVx_fault h⟩
  | ldBVx x =>
    by_cases h : s.i.toNat + 3 ≤ 0x1000
    · exact .inl ⟨State.not_causeFits nofun nofun nofun (by simp) (.inr h), exec_ldBVx x h⟩
    · exact .inr ⟨.memoryOutOfBounds (max s.i.toNat 0x1000), ⟨rfl, by show _ < _ + (0 + 3); omega⟩,
        exec_ldBVx_fault x (by omega)⟩
  | ldMemVx x =>
    by_cases h : s.i.toNat + (x.toNat + 1) ≤ 0x1000
    · exact .inl ⟨State.not_causeFits nofun nofun nofun (by simp) (.inr (by show _ + (0 + (x.toNat + 1)) ≤ _; omega)),
        exec_ldMemVx h⟩
    · exact .inr ⟨.memoryOutOfBounds (max s.i.toNat 0x1000), ⟨rfl, by show _ < _ + (0 + (x.toNat + 1)); omega⟩,
        exec_ldMemVx_fault (by omega)⟩
  | ldVxMem x =>
    by_cases h : s.i.toNat + (x.toNat + 1) ≤ 0x1000
    · exact .inl ⟨State.not_causeFits nofun nofun nofun (by simp) (.inr h), exec_ldVxMem h⟩
    · exact .inr ⟨.memoryOutOfBounds (max s.i.toNat 0x1000), ⟨rfl, by show _ < _ + (x.toNat + 1 + 0); omega⟩,
        exec_ldVxMem_fault (by omega)⟩
  | skp x =>
    by_cases h : 15 < (s.getV x).toNat
    · exact .inr ⟨.keyIndexOutOfRange (s.getV x), ⟨x, .inl rfl, rfl, h⟩, exec_skp_fault h⟩
    · refine .inl ⟨State.not_causeFits nofun nofun nofun ?_ (.inl rfl), ?_⟩
      · rintro _ (hx | hx)
        · cases hx; omega
        · cases hx
      · rw [exec_skp (k := ⟨(s.getV x).toNat, by omega⟩) rfl, State.effect]
        simp [show (s.getV x).toNat < 16 by omega]
  | sknp x =>
    by_cases h : 15 < (s.getV x).toNat
    · exact .inr ⟨.keyIndexOutOfRange (s.getV x), ⟨x, .inr rfl, rfl, h⟩, exec_sknp_fault h⟩
    · refine .inl ⟨State.not_causeFits nofun nofun nofun ?_ (.inl rfl), ?_⟩
      · rintro _ (hx | hx)
        · cases hx
        · cases hx; omega
      · rw [exec_sknp (k := ⟨(s.getV x).toNat, by omega⟩) rfl, State.effect]
        simp [show (s.getV x).toNat < 16 by omega]
  | ldVxK x =>
    refine .inl ⟨State.not_causeFits nofun nofun nofun (by simp) (.inl rfl), ?_⟩
    have hpc : s.pc + 2#16 - 2#16 = s.pc := BitVec.add_sub_cancel ..
    rw [State.effect, exec_ldVxK]
    cases s.beginCycle.pressedKey <;> simp only [hpc]
  | _ => exact .inl ⟨State.not_causeFits nofun nofun nofun (by simp) (.inl rfl), rfl⟩

/-! ### What an execute step changes, field by field -/

@[simp] theorem State.effect_fault (s : State) (i : Instr) : (s.effect i).fault = s.fault := by cases i <;> simp [State.effect]

@[simp] theorem State.effect_keys (s : State) (i : Instr) : (s.effect i).keys = s.hostInput.keys := by cases i <;> simp [State.effect]

@[simp] theorem State.effect_pending (s : State) (i : Instr) : (s.effect i).pending = s.pending := by cases i <;> simp [State.effect]

@[simp] theorem State.effect_draws (s : State) (i : Instr) : (s.effect i).draws = s.draws := by cases i <;> simp [State.effect]

@[simp] theorem State.effect_op (s : State) (i : Instr) : (s.effect i).op = s.op := by cases i <;> simp [State.effect]

@[simp] theorem State.effect_loadOpen (s : State) (i : Instr) : (s.effect i).loadOpen = s.loadOpen := by cases i <;> simp [State.effect]

theorem State.effect_stack {s : State} {i : Instr} (h : ∀ nnn, i ≠ .call nnn) : (s.effect i).stack = s.stack := by
  cases i <;> simp_all [State.effect]

theorem State.effect_sp {s : State} {i : Instr} (hc : ∀ nnn, i ≠ .call nnn) (hr : i ≠ .ret) :
    (s.effect i).sp = s.sp := by cases i <;> simp_all [State.effect]

theorem State.effect_fb {s : State} {i : Instr} (hc : i ≠ .cls) (hd : ∀ x y n, i ≠ .drw x y n) :
    (s.effect i).fb = s.fb := by cases i <;> simp_all [State.effect]

theorem State.effect_mem {s : State} {i : Instr} (h : i.storeLen = 0) : (s.effect i).mem = s.mem := by
  cases i <;> simp_all [State.effect, Instr.storeLen]

theorem State.effect_i {s : State} {i : Instr} (h1 : ∀ nnn, i ≠ .ldI nnn) (h2 : ∀ x, i ≠ .addIVx x)
    (h3 : ∀ x, i ≠ .ldFVx x) : (s.effect i).i = s.i := by cases i <;> simp_all [State.effect]

theorem State.effect_dt {s : State} {i : Instr} (h : ∀ x, i ≠ .ldDtVx x) : (s.effect i).dt = s.dt := by
  cases i <;> simp_all [State.effect]

theorem State.effect_st {s : State} {i : Instr} (h : ∀ x, i ≠ .ldStVx x) : (s.effect i).st = s.st := by
  cases i <;> simp_all [State.effect]

/-- A state meets the condition of at most one cause for an instruction (R203). -/
theorem State.causeFits_unique {s : State} {i : Instr} {c d : Cause} (hc : s.CauseFits i c) (hd : s.CauseFits i d) :
    c = d := by
  have mem_len : ∀ {a}, s.CauseFits i (.memoryOutOfBounds a) → i.readLen + i.storeLen ≠ 0 := by
    intro a h
    have h1 := h.1
    have h2 := h.2
    omega
  cases c <;> cases d <;> try rfl
  case memoryOutOfBounds.memoryOutOfBounds a b => rw [hc.1, hd.1]
  case stackOverflow.memoryOutOfBounds => obtain ⟨⟨_, rfl⟩, _⟩ := hc; exact absurd rfl (mem_len hd)
  case stackUnderflow.memoryOutOfBounds => obtain ⟨rfl, _⟩ := hc; exact absurd rfl (mem_len hd)
  case invalidDigit.memoryOutOfBounds => obtain ⟨_, rfl, _⟩ := hc; exact absurd rfl (mem_len hd)
  case keyIndexOutOfRange.memoryOutOfBounds => obtain ⟨_, rfl | rfl, _⟩ := hc <;> exact absurd rfl (mem_len hd)
  case memoryOutOfBounds.stackOverflow => obtain ⟨⟨_, rfl⟩, _⟩ := hd; exact absurd rfl (mem_len hc)
  case memoryOutOfBounds.stackUnderflow => obtain ⟨rfl, _⟩ := hd; exact absurd rfl (mem_len hc)
  case memoryOutOfBounds.invalidDigit => obtain ⟨_, rfl, _⟩ := hd; exact absurd rfl (mem_len hc)
  case memoryOutOfBounds.keyIndexOutOfRange => obtain ⟨_, rfl | rfl, _⟩ := hd <;> exact absurd rfl (mem_len hc)
  all_goals simp only [State.CauseFits] at hc hd
  all_goals grind

/-- What `exec` answers is the effect of the instruction, or one fault taken. -/
theorem exec_next_cases {i : Instr} {s t : State} (h : exec i s = .next t) :
    ((∀ c, ¬ s.CauseFits i c) ∧ t = (s.effect i).endCycle) ∨ ∃ c, s.CauseFits i c ∧ t = s.takeFault c := by
  rcases exec_cases i s with ⟨hn, h2⟩ | ⟨c, hc, h2⟩
  · exact .inl ⟨hn, Host.Outcome.next.inj (h.symm.trans h2)⟩
  · exact .inr ⟨c, hc, Host.Outcome.next.inj (h.symm.trans h2)⟩

/-- A cycle that starts and ends with no fault recorded is the effect of its instruction. -/
theorem exec_next_of_no_fault {i : Instr} {s t : State} (h : exec i s = .next t) (ht : t.fault = none) :
    t = (s.effect i).endCycle := by
  rcases exec_next_cases h with ⟨_, h⟩ | ⟨c, _, rfl⟩
  · exact h
  · simp at ht

end Sys2Proof.Machine
end

