-- ==== Sys2Proof/Laws/Framebuffer.lean ====
section
/-! SUPPORT. The framebuffer: a pixel after a write, and what drawing a sprite does to every pixel and to the collision. -/

namespace Sys2Proof.Machine

/-! ### Pixels -/

theorem Framebuffer.get_put (f : Framebuffer) (px py qx qy : Nat) (b : Bool) :
    (f.put px py b).get qx qy = if qx = px ∧ qy = py ∧ px < 64 ∧ py < 32 then b else f.get qx qy := by
  unfold Framebuffer.put
  by_cases hp : px < 64 ∧ py < 32
  · rw [dif_pos hp]
    unfold Framebuffer.get
    by_cases hq : qx < 64 ∧ qy < 32
    · simp only [hq, and_self, dite_true, Vector.getElem_set, hp, and_true]
      by_cases hy : py = qy
      · subst hy
        by_cases hx : px = qx
        · simp [hx]
        · simp [hx, Ne.symm hx]
      · simp [hy, Ne.symm hy]
    · rw [dif_neg hq, dif_neg hq, if_neg (by omega)]
  · rw [dif_neg hp, if_neg (by omega)]

theorem Framebuffer.get_clear (px py : Nat) : Framebuffer.clear.get px py = false := by
  unfold Framebuffer.get Framebuffer.clear
  split <;> simp

/-! ### A list of plots -/

/-- Plotting at a list of positions, one after the other. -/
def Canvas.plotAll (c : Canvas) (ps : List (Nat × Nat)) : Canvas := ps.foldl (fun c p => c.plot p.1 p.2) c

theorem Canvas.plotAll_append (c : Canvas) (ps qs : List (Nat × Nat)) :
    c.plotAll (ps ++ qs) = (c.plotAll ps).plotAll qs := List.foldl_append ..

theorem Canvas.get_plot (c : Canvas) {px py qx qy : Nat} (hx : qx < 64) (hy : qy < 32) :
    (c.plot px py).fb.get qx qy = (c.fb.get qx qy ^^ decide ((qx, qy) = (px, py))) := by
  unfold Canvas.plot
  split
  next h =>
    rw [Framebuffer.get_put]
    by_cases hq : (qx, qy) = (px, py)
    · obtain ⟨rfl, rfl⟩ := Prod.mk.inj hq
      simp [hx, hy]
    · rw [if_neg fun h' => hq (Prod.ext h'.1 h'.2.1)]
      simp [hq]
  next h =>
    have hq : (qx, qy) ≠ (px, py) := fun h' => h (by obtain ⟨rfl, rfl⟩ := Prod.mk.inj h'; omega)
    simp [hq]

/-- Plotting at distinct positions flips exactly the pixels listed. -/
theorem Canvas.get_plotAll (ps : List (Nat × Nat)) : ∀ c : Canvas, ps.Nodup → ∀ {qx qy : Nat}, qx < 64 → qy < 32 →
    (c.plotAll ps).fb.get qx qy = (c.fb.get qx qy ^^ decide ((qx, qy) ∈ ps)) := by
  induction ps with
  | nil => intro c _ qx qy _ _; simp [Canvas.plotAll]
  | cons p ps ih =>
    intro c hn qx qy hx hy
    have hn := List.nodup_cons.mp hn
    show ((c.plot p.1 p.2).plotAll ps).fb.get qx qy = _
    rw [ih _ hn.2 hx hy, c.get_plot hx hy]
    by_cases hq : (qx, qy) = p
    · subst hq
      simp [hn.1]
    · simp [hq]

/-- Plotting at distinct positions collides exactly when one of them lies in the grid and was on. -/
theorem Canvas.hit_plotAll (ps : List (Nat × Nat)) : ∀ c : Canvas, ps.Nodup →
    ((c.plotAll ps).hit = true ↔ c.hit = true ∨ ∃ p ∈ ps, p.1 < 64 ∧ p.2 < 32 ∧ c.fb.get p.1 p.2 = true) := by
  induction ps with
  | nil => intro c _; simp [Canvas.plotAll]
  | cons p ps ih =>
    intro c hn
    have hn := List.nodup_cons.mp hn
    show ((c.plot p.1 p.2).plotAll ps).hit = true ↔ _
    rw [ih _ hn.2]
    have htail : (∃ q ∈ ps, q.1 < 64 ∧ q.2 < 32 ∧ (c.plot p.1 p.2).fb.get q.1 q.2 = true) ↔
        ∃ q ∈ ps, q.1 < 64 ∧ q.2 < 32 ∧ c.fb.get q.1 q.2 = true := by
      refine exists_congr fun q => and_congr_right fun hq => and_congr_right fun hx => and_congr_right fun hy => ?_
      have hne : ¬ (q.1, q.2) = (p.1, p.2) := fun h => hn.1 ((show q = p from h) ▸ hq)
      rw [c.get_plot hx hy]
      simp [hne]
    rw [htail]
    have hhead : (c.plot p.1 p.2).hit = true ↔ c.hit = true ∨ (p.1 < 64 ∧ p.2 < 32 ∧ c.fb.get p.1 p.2 = true) := by
      unfold Canvas.plot
      split
      next h => simp [show p.1 < 64 by omega, show p.2 < 32 by omega]
      next h => simp only [iff_self_or]; omega
    rw [hhead]
    simp only [List.mem_cons, exists_eq_or_imp, or_assoc]

/-! ### The positions of a sprite -/

/-- The positions of the set bits of a sprite byte. -/
def rowPositions (ox py : Nat) (b : Byte) (ks : List Nat) : List (Nat × Nat) :=
  (ks.filter fun k => b.getLsbD (7 - k)).map fun k => (ox + k, py)

/-- The positions of the set bits of a sprite, row by row. -/
def spritePositions (ox oy : Nat) : List Byte → List (Nat × Nat)
  | [] => []
  | b :: bs => rowPositions ox oy b [0, 1, 2, 3, 4, 5, 6, 7] ++ spritePositions ox (oy + 1) bs

theorem Canvas.plotColumns_eq_plotAll (ox py : Nat) (b : Byte) (ks : List Nat) : ∀ c : Canvas,
    c.plotColumns ox py b ks = c.plotAll (rowPositions ox py b ks) := by
  induction ks with
  | nil => intro c; rfl
  | cons k ks ih =>
    intro c
    rw [Canvas.plotColumns, ih]
    by_cases h : b.getLsbD (7 - k) = true
    · simp [rowPositions, h, Canvas.plotAll]
    · simp [rowPositions, h, Canvas.plotAll]

theorem Canvas.plotRows_eq_plotAll (bs : List Byte) : ∀ (c : Canvas) (ox oy : Nat),
    c.plotRows ox oy bs = c.plotAll (spritePositions ox oy bs) := by
  induction bs with
  | nil => intro c ox oy; rfl
  | cons b bs ih =>
    intro c ox oy
    rw [Canvas.plotRows, ih, Canvas.plotRow, Canvas.plotColumns_eq_plotAll, ← Canvas.plotAll_append]
    rfl

theorem mem_rowPositions (ox py : Nat) (b : Byte) (ks : List Nat) (p : Nat × Nat) :
    p ∈ rowPositions ox py b ks ↔ p.2 = py ∧ ∃ k ∈ ks, p.1 = ox + k ∧ b.getLsbD (7 - k) = true := by
  simp only [rowPositions, List.mem_map, List.mem_filter]
  constructor
  · rintro ⟨k, ⟨hk, hb⟩, rfl⟩
    exact ⟨rfl, k, hk, rfl, hb⟩
  · rintro ⟨hy, k, hk, hx, hb⟩
    exact ⟨k, ⟨hk, hb⟩, Prod.ext hx.symm hy.symm⟩

/-- A position belongs to a sprite when the sprite has a set bit there; bit 7 is the leftmost column. -/
theorem mem_spritePositions (bs : List Byte) : ∀ (ox oy : Nat) (p : Nat × Nat), p ∈ spritePositions ox oy bs ↔
    (ox ≤ p.1 ∧ p.1 < ox + 8 ∧ oy ≤ p.2 ∧ p.2 < oy + bs.length) ∧
      (bs.getD (p.2 - oy) 0#8).getLsbD (7 - (p.1 - ox)) = true := by
  induction bs with
  | nil => intro ox oy p; simp [spritePositions]
  | cons b bs ih =>
    intro ox oy p
    rw [spritePositions, List.mem_append, mem_rowPositions, ih]
    have hcol : (∃ k ∈ [0, 1, 2, 3, 4, 5, 6, 7], p.1 = ox + k ∧ b.getLsbD (7 - k) = true) ↔
        (ox ≤ p.1 ∧ p.1 < ox + 8) ∧ b.getLsbD (7 - (p.1 - ox)) = true := by
      constructor
      · rintro ⟨k, hk, hx, hb⟩
        have hk8 : k < 8 := by simp at hk; omega
        exact ⟨by omega, by rwa [show p.1 - ox = k by omega]⟩
      · rintro ⟨hx, hb⟩
        refine ⟨p.1 - ox, ?_, by omega, hb⟩
        have : p.1 - ox < 8 := by omega
        simp
        omega
    rw [hcol]
    constructor
    · rintro (⟨hy, hx, hb⟩ | ⟨h, hb⟩)
      · refine ⟨⟨hx.1, hx.2, by omega, by simp only [List.length_cons]; omega⟩, ?_⟩
        simpa [hy] using hb
      · refine ⟨⟨h.1, h.2.1, by omega, by simp only [List.length_cons]; omega⟩, ?_⟩
        rw [show p.2 - oy = (p.2 - (oy + 1)) + 1 by omega]
        simpa using hb
    · rintro ⟨h, hb⟩
      rcases Nat.eq_or_lt_of_le h.2.2.1 with hy | hy
      · refine .inl ⟨hy.symm, ⟨h.1, h.2.1⟩, ?_⟩
        simpa [← hy] using hb
      · have hlen := h.2.2.2
        simp only [List.length_cons] at hlen
        refine .inr ⟨⟨h.1, h.2.1, by omega, by omega⟩, ?_⟩
        rw [show p.2 - oy = (p.2 - (oy + 1)) + 1 by omega] at hb
        simpa using hb

/-- No two set bits of a sprite fall on one position. -/
theorem nodup_spritePositions (bs : List Byte) : ∀ ox oy, (spritePositions ox oy bs).Nodup := by
  induction bs with
  | nil => intro ox oy; exact List.nodup_nil
  | cons b bs ih =>
    intro ox oy
    have hrow : (rowPositions ox oy b [0, 1, 2, 3, 4, 5, 6, 7]).Nodup := by
      refine ((by decide : [0, 1, 2, 3, 4, 5, 6, 7].Nodup).filter _).map fun j k h => ?_
      have := congrArg Prod.fst h
      simpa using this
    refine List.nodup_append.mpr ⟨hrow, ih ox (oy + 1), fun p hp q hq hpq => ?_⟩
    subst hpq
    have h1 := ((mem_rowPositions ..).mp hp).1
    have h2 := ((mem_spritePositions ..).mp hq).1
    omega

/-- A drawn sprite flips exactly the pixels of its set bits. -/
theorem Canvas.get_plotRows (c : Canvas) (ox oy : Nat) (bs : List Byte) {qx qy : Nat} (hx : qx < 64) (hy : qy < 32) :
    (c.plotRows ox oy bs).fb.get qx qy = (c.fb.get qx qy ^^ decide ((qx, qy) ∈ spritePositions ox oy bs)) := by
  rw [Canvas.plotRows_eq_plotAll, Canvas.get_plotAll _ _ (nodup_spritePositions ..) hx hy]

/-- A drawn sprite collides exactly when one of its set bits meets a pixel of the grid that was on. -/
theorem Canvas.hit_plotRows (c : Canvas) (ox oy : Nat) (bs : List Byte) :
    (c.plotRows ox oy bs).hit = true ↔ c.hit = true ∨
      ∃ p ∈ spritePositions ox oy bs, p.1 < 64 ∧ p.2 < 32 ∧ c.fb.get p.1 p.2 = true := by
  rw [Canvas.plotRows_eq_plotAll, Canvas.hit_plotAll _ _ (nodup_spritePositions ..)]

end Sys2Proof.Machine
end

