-- ==== Sys2Proof/Laws/PerInstr.lean ====
section
/-! SUPPORT. A fact about every instruction, one lemma per constructor: the group nibble of its word (spec/30_encoding.md
R73, R76). -/

namespace Sys2Proof.Laws.EncodeGroup

/-- The group of an instruction, the first column of the opcode map (R76). -/
def group : Instr → Nibble
  | .cls | .ret | .sysNop _ => 0x0#4
  | .jp _ => 0x1#4
  | .call _ => 0x2#4
  | .seImm _ _ => 0x3#4
  | .sneImm _ _ => 0x4#4
  | .seReg _ _ => 0x5#4
  | .ldImm _ _ => 0x6#4
  | .addImm _ _ => 0x7#4
  | .ldReg _ _ | .orReg _ _ | .andReg _ _ | .xorReg _ _ | .addReg _ _ => 0x8#4
  | .sub _ _ | .shr _ | .subn _ _ | .shl _ | .nop8 _ => 0x8#4
  | .sneReg _ _ => 0x9#4
  | .ldI _ => 0xA#4
  | .jpV0 _ => 0xB#4
  | .rnd _ _ => 0xC#4
  | .drw _ _ _ => 0xD#4
  | .skp _ | .sknp _ | .nopE _ => 0xE#4
  | .ldVxDt _ | .ldVxK _ | .ldDtVx _ | .ldStVx _ | .addIVx _ => 0xF#4
  | .ldFVx _ | .ldBVx _ | .ldMemVx _ | .ldVxMem _ | .nopF _ => 0xF#4

/-- The word of an instruction has the group of its row, whatever its operands. -/
def Statement (i : Instr) : Prop := opG (encode i) = group i

theorem cls : Statement (.cls) := rfl
theorem ret : Statement (.ret) := rfl
theorem jp (nnn : Addr) : Statement (.jp nnn) := opG_wordNNN _ _
theorem call (nnn : Addr) : Statement (.call nnn) := opG_wordNNN _ _
theorem seImm (x : Reg) (kk : Byte) : Statement (.seImm x kk) := opG_wordXKK _ _ _
theorem sneImm (x : Reg) (kk : Byte) : Statement (.sneImm x kk) := opG_wordXKK _ _ _
theorem seReg (x y : Reg) : Statement (.seReg x y) := opG_wordXYN _ _ _ _
theorem ldImm (x : Reg) (kk : Byte) : Statement (.ldImm x kk) := opG_wordXKK _ _ _
theorem addImm (x : Reg) (kk : Byte) : Statement (.addImm x kk) := opG_wordXKK _ _ _
theorem ldReg (x y : Reg) : Statement (.ldReg x y) := opG_wordXYN _ _ _ _
theorem orReg (x y : Reg) : Statement (.orReg x y) := opG_wordXYN _ _ _ _
theorem andReg (x y : Reg) : Statement (.andReg x y) := opG_wordXYN _ _ _ _
theorem xorReg (x y : Reg) : Statement (.xorReg x y) := opG_wordXYN _ _ _ _
theorem addReg (x y : Reg) : Statement (.addReg x y) := opG_wordXYN _ _ _ _
theorem sub (x y : Reg) : Statement (.sub x y) := opG_wordXYN _ _ _ _
theorem shr (x : Reg) : Statement (.shr x) := opG_wordXYN _ _ _ _
theorem subn (x y : Reg) : Statement (.subn x y) := opG_wordXYN _ _ _ _
theorem shl (x : Reg) : Statement (.shl x) := opG_wordXYN _ _ _ _
theorem sneReg (x y : Reg) : Statement (.sneReg x y) := opG_wordXYN _ _ _ _
theorem ldI (nnn : Addr) : Statement (.ldI nnn) := opG_wordNNN _ _
theorem jpV0 (nnn : Addr) : Statement (.jpV0 nnn) := opG_wordNNN _ _
theorem rnd (x : Reg) (kk : Byte) : Statement (.rnd x kk) := opG_wordXKK _ _ _
theorem drw (x y : Reg) (n : Nibble) : Statement (.drw x y n) := opG_wordXYN _ _ _ _
theorem skp (x : Reg) : Statement (.skp x) := opG_wordXKK _ _ _
theorem sknp (x : Reg) : Statement (.sknp x) := opG_wordXKK _ _ _
theorem ldVxDt (x : Reg) : Statement (.ldVxDt x) := opG_wordXKK _ _ _
theorem ldVxK (x : Reg) : Statement (.ldVxK x) := opG_wordXKK _ _ _
theorem ldDtVx (x : Reg) : Statement (.ldDtVx x) := opG_wordXKK _ _ _
theorem ldStVx (x : Reg) : Statement (.ldStVx x) := opG_wordXKK _ _ _
theorem addIVx (x : Reg) : Statement (.addIVx x) := opG_wordXKK _ _ _
theorem ldFVx (x : Reg) : Statement (.ldFVx x) := opG_wordXKK _ _ _
theorem ldBVx (x : Reg) : Statement (.ldBVx x) := opG_wordXKK _ _ _
theorem ldMemVx (x : Reg) : Statement (.ldMemVx x) := opG_wordXKK _ _ _
theorem ldVxMem (x : Reg) : Statement (.ldVxMem x) := opG_wordXKK _ _ _
theorem sysNop (nnn : Addr) : Statement (.sysNop nnn) := opG_wordNNN _ _
theorem nop8 (n : Nibble) : Statement (.nop8 n) := opG_wordXYN _ _ _ _
theorem nopE (n : Nibble) : Statement (.nopE n) := opG_wordXYN _ _ _ _
theorem nopF (kk : Byte) : Statement (.nopF kk) := opG_wordXKK _ _ _

end Sys2Proof.Laws.EncodeGroup
end

