-- ==== Sys2Proof/Tests/Slice0.lean ====
section
/-! SUPPORT. The model's own tests: ill-formed terms, words written out from the encodings of spec/30_encoding.md, single
steps with the results that spec/95_test_vectors.md gives (the vector stands beside each), and a witness for the
hypotheses of every statement. -/

namespace Sys2Proof.Tests

open Sys2Proof.Machine

/-! ### WellFormed refuses -/

theorem test_wf_sysNop : ¬ (Instr.sysNop 0x120#12).WellFormed ∧ ¬ (Instr.sysNop 0x00E#12).WellFormed := by decide
theorem test_wf_nop8 : ¬ (Instr.nop8 0x0#4).WellFormed ∧ ¬ (Instr.nop8 0x7#4).WellFormed ∧
    ¬ (Instr.nop8 0xE#4).WellFormed := by decide
theorem test_wf_nopE : ¬ (Instr.nopE 0x1#4).WellFormed ∧ ¬ (Instr.nopE 0xE#4).WellFormed := by decide
theorem test_wf_nopF : ¬ (Instr.nopF 0x07#8).WellFormed ∧ ¬ (Instr.nopF 0x65#8).WellFormed := by decide

/-! ### Words written out bit by bit (R71 to R76): group, x, y, n -/

theorem test_decode_group0 :
    decode 0b0000_0000_1110_0000#16 = .cls ∧ decode 0b0000_0000_0000_0000#16 = .cls ∧
    decode 0b0000_0001_0010_0000#16 = .cls ∧ decode 0b0000_0000_1110_1110#16 = .ret ∧
    decode 0b0000_1111_0000_1110#16 = .ret ∧ decode 0b0000_0001_0010_0011#16 = .sysNop 0x123#12 := by decide
theorem test_decode_jumps :
    decode 0b0001_1010_1011_1100#16 = .jp 0xABC#12 ∧ decode 0b0010_0011_0000_0001#16 = .call 0x301#12 ∧
    decode 0b1011_1111_1111_1111#16 = .jpV0 0xFFF#12 := by decide
theorem test_decode_skips :
    decode 0b0011_1010_0100_0010#16 = .seImm 0xA#4 0x42#8 ∧ decode 0b0100_1010_0100_0010#16 = .sneImm 0xA#4 0x42#8 ∧
    decode 0b0101_0001_0010_0000#16 = .seReg 0x1#4 0x2#4 ∧ decode 0b0101_0001_0010_0011#16 = .seReg 0x1#4 0x2#4 ∧
    decode 0b1001_0001_0010_0000#16 = .sneReg 0x1#4 0x2#4 := by decide
theorem test_decode_immediates :
    decode 0b0110_1010_0000_0010#16 = .ldImm 0xA#4 0x02#8 ∧ decode 0b0111_1111_0000_0001#16 = .addImm 0xF#4 0x01#8 ∧
    decode 0b1100_0000_0000_1111#16 = .rnd 0x0#4 0x0F#8 ∧ decode 0b1010_0001_0010_0011#16 = .ldI 0x123#12 := by decide
theorem test_decode_group8 :
    decode 0b1000_0001_0010_0000#16 = .ldReg 0x1#4 0x2#4 ∧ decode 0b1000_0001_0010_0001#16 = .orReg 0x1#4 0x2#4 ∧
    decode 0b1000_0001_0010_0010#16 = .andReg 0x1#4 0x2#4 ∧ decode 0b1000_0001_0010_0011#16 = .xorReg 0x1#4 0x2#4 ∧
    decode 0b1000_0001_0010_0100#16 = .addReg 0x1#4 0x2#4 ∧ decode 0b1000_0001_0010_0101#16 = .sub 0x1#4 0x2#4 ∧
    decode 0b1000_0001_0010_0110#16 = .shr 0x1#4 ∧ decode 0b1000_0001_0010_0111#16 = .subn 0x1#4 0x2#4 ∧
    decode 0b1000_0001_0010_1110#16 = .shl 0x1#4 ∧ decode 0b1000_0000_0000_1000#16 = .nop8 0x8#4 ∧
    decode 0b1000_0000_0000_0000#16 = .ldReg 0x0#4 0x0#4 := by decide
theorem test_decode_drw : decode 0b1101_0001_0010_0101#16 = .drw 0x1#4 0x2#4 0x5#4 := by decide
theorem test_decode_groupE :
    decode 0b1110_0001_1001_1110#16 = .skp 0x1#4 ∧ decode 0b1110_0001_1010_0001#16 = .sknp 0x1#4 ∧
    decode 0b1110_0001_1001_0001#16 = .sknp 0x1#4 ∧ decode 0b1110_0000_1111_1111#16 = .nopE 0xF#4 := by decide
theorem test_decode_groupF :
    decode 0b1111_0011_0000_0111#16 = .ldVxDt 0x3#4 ∧ decode 0b1111_0011_0000_1010#16 = .ldVxK 0x3#4 ∧
    decode 0b1111_0011_0001_0101#16 = .ldDtVx 0x3#4 ∧ decode 0b1111_0011_0001_1000#16 = .ldStVx 0x3#4 ∧
    decode 0b1111_0011_0001_1110#16 = .addIVx 0x3#4 ∧ decode 0b1111_0011_0010_1001#16 = .ldFVx 0x3#4 ∧
    decode 0b1111_0011_0011_0011#16 = .ldBVx 0x3#4 ∧ decode 0b1111_0011_0101_0101#16 = .ldMemVx 0x3#4 ∧
    decode 0b1111_0011_0110_0101#16 = .ldVxMem 0x3#4 ∧ decode 0b1111_0000_1111_1111#16 = .nopF 0xFF#8 := by decide
theorem test_decode_bytes :
    decodeBytes [0x6A#8, 0x02#8, 0xFA#8] = .ok (.ldImm 0xA#4 0x02#8, [0xFA#8]) ∧
    decodeBytes [0x6A#8] = .error .truncated ∧ decodeBytes [] = .error .truncated := by decide
theorem test_decode_table_word : decodeTableWord 16 0x8124 = some (.addReg 0x1#4 0x2#4) := by decide
theorem test_encode :
    encode (.ldImm 0xA#4 0x02#8) = 0x6A02#16 ∧ encode (.ldBVx 0xA#4) = 0xFA33#16 ∧ encode .cls = 0x00E0#16 ∧
    encode (.drw 0x1#4 0x2#4 0x5#4) = 0xD125#16 ∧ encode (.jp 0x200#12) = 0x1200#16 := by decide

/-! ### Small states -/

/-- The state after a next outcome. -/
def nextOf : Result → Option State
  | .next t => some t
  | .fault _ => none
  | .refused _ => none

/-- A keypad snapshot with the listed keys pressed. -/
def pressed (ks : List Nat) : Vector Bool 16 := Vector.ofFn fun k => ks.contains k.val

/-- The inputs of the vectors: the listed keys and a random byte. -/
def inp (ks : List Nat) (r : Byte) : HostInput := { keys := pressed ks, rand := r }

/-- The reset state with a word at 0x200, no key pressed and the random byte 0. -/
def boot (w : Nat) : State := { State.reset.withFetchWord 16 w with pending := [inp [] 0x00#8] }

/-- Registers set by number. -/
def withV (s : State) (rs : List (Reg × Byte)) : State := rs.foldl (fun t p => t.setV p.1 p.2) s

/-- Bytes put in memory. -/
def withM (s : State) (a : Nat) (bs : List Byte) : State := { s with mem := s.mem.copy a bs }

/-- A framebuffer with every pixel on. -/
def allOn : Framebuffer := Vector.replicate 32 (Vector.replicate 64 true)

/-- What one step leaves of the state, seen through a function. -/
def see {α : Type} (s : State) (f : State → α) : Option α := (nextOf (step s)).map f

/-- The record of a fault at 0x200. -/
def rec200 (c : Cause) (w : Word) : Option FaultRecord := some { cause := c, fpc := 0x200#16, fop := some w }

/-- The pixels that are on in the given columns and rows. -/
def lit (s : State) (ps : List (Nat × Nat)) : List Bool := ps.map fun p => s.fb.get p.1 p.2

/-! ### The cycle (V-CYC) -/

/-- V-CYC-4. -/
theorem test_sysNop : see (boot 0x0123) (fun t => (t.pc, t.v, t.i, t.fault)) =
    some (0x202#16, State.reset.v, 0#16, none) := by decide
/-- V-CYC-5. -/
theorem test_nop8 : see { boot 0x8008 with dt := 1#8, st := 2#8 } (fun t => (t.pc, t.dt, t.st)) =
    some (0x202#16, 0#8, 1#8) := by decide
/-- V-CYC-3. -/
theorem test_nopE : see (boot 0xE0FF) (fun t => (t.pc, t.v, t.dt)) = some (0x202#16, State.reset.v, 0#8) := by decide
/-- V-CYC-2. -/
theorem test_nopF : see (boot 0xF0FF) (fun t => (t.pc, t.v, t.dt)) = some (0x202#16, State.reset.v, 0#8) := by decide
/-- V-CYC-7 and V-CYC-8. -/
theorem test_fetch_fault :
    see { boot 0 with pc := 0xFFF#16 } (fun t => (t.pc, t.fault)) =
      some (0xFFF#16, some ⟨.memoryOutOfBounds 0x1000, 0xFFF#16, none⟩) ∧
    see { boot 0 with pc := 0x1000#16 } (fun t => (t.pc, t.fault)) =
      some (0x1000#16, some ⟨.memoryOutOfBounds 0x1000, 0x1000#16, none⟩) := by decide
/-- V-CYC-11. -/
theorem test_odd_pc : see { withM (boot 0) 0x201 [0x60#8, 0x07#8] with pc := 0x201#16 } (fun t => (t.pc, t.getV 0#4)) =
    some (0x203#16, 0x07#8) := by decide
/-- W1: an image of two bytes, then one cycle. -/
theorem test_load_then_cycle :
    (match State.reset.load [0x60#8, 0x05#8] with
      | .next (.ok, s) => see s (fun t => (t.pc, t.getV 0#4))
      | _ => none) = some (0x202#16, 0x05#8) := by decide

/-- R200's table: the code and the info of each cause, in the records of V-CF-5, V-CF-6, V-IDX-7, V-DSP-14, V-KT-5. -/
theorem test_fault_codes :
    see { boot 0x2300 with sp := 16 } (fun t => t.fault.map fun r => (r.code, r.info)) = some (some (1, none)) ∧
    see (boot 0x00EE) (fun t => t.fault.map fun r => (r.code, r.info)) = some (some (2, none)) ∧
    see (withV (boot 0xF029) [(0#4, 0x10#8)]) (fun t => t.fault.map fun r => (r.code, r.info)) =
      some (some (3, some 0x10)) ∧
    see { boot 0xD012 with i := 0xFFF#16 } (fun t => t.fault.map fun r => (r.code, r.info)) =
      some (some (4, some 0x1000)) ∧
    see (withV (boot 0xE19E) [(1#4, 0x10#8)]) (fun t => t.fault.map fun r => (r.code, r.info)) =
      some (some (5, some 0x10)) := by decide

/-! ### Display (V-DSP) -/

/-- V-DSP-1 and V-DSP-3. -/
theorem test_cls : see { withV (boot 0x00E0) [(0xF#4, 7#8)] with fb := allOn } (fun t => (t.pc, t.getV 0xF#4, t.fb)) =
      some (0x202#16, 7#8, State.reset.fb) ∧
    see { boot 0x0120 with fb := allOn } (fun t => t.fb) = some State.reset.fb := by decide
/-- V-DSP-6. -/
theorem test_drw_clips : see (withM { withV (boot 0xD011) [(0#4, 62#8)] with i := 0x300#16 } 0x300 [0xFF#8])
      (fun t => (lit t [(61, 0), (62, 0), (63, 0), (0, 0), (62, 1)], t.getV 0xF#4)) =
    some ([false, true, true, false, false], 0#8) := by decide
/-- V-DSP-9 and V-DSP-14. -/
theorem test_drw_collision :
    see (withM { boot 0xD011 with i := 0x300#16, fb := State.reset.fb.put 1 0 true } 0x300 [0xC0#8])
      (fun t => (lit t [(0, 0), (1, 0)], t.getV 0xF#4)) = some ([true, false], 1#8) ∧
    see { boot 0xD012 with i := 0xFFF#16 } (fun t => (t.pc, t.fault)) =
      some (0x200#16, rec200 (.memoryOutOfBounds 0x1000) 0xD012#16) := by decide

/-! ### Control flow (V-CF) -/

/-- V-CF-1. -/
theorem test_jp : see (boot 0x1ABC) (fun t => t.pc) = some 0xABC#16 := by decide
/-- V-CF-4. -/
theorem test_call : see { boot 0x2300 with sp := 15 } (fun t => (t.pc, t.sp, t.stack[15])) =
    some (0x300#16, 16, 0x202#16) := by decide
/-- V-CF-5. -/
theorem test_call_overflow : see { boot 0x2300 with sp := 16 } (fun t => (t.sp, t.fault)) =
    some (16, rec200 .stackOverflow 0x2300#16) := by decide
/-- V-CF-7, at 0x200. -/
theorem test_ret : see { boot 0x00EE with sp := 1, stack := State.reset.stack.set 0 0x0456#16 }
      (fun t => (t.pc, t.sp, t.stack[0])) = some (0x456#16, 0, 0x456#16) := by decide
/-- V-CF-6. -/
theorem test_ret_underflow : see (boot 0x00EE) (fun t => (t.sp, t.fault)) =
    some (0, rec200 .stackUnderflow 0x00EE#16) := by decide
/-- V-CF-8 and V-CF-9. -/
theorem test_seImm : see (withV (boot 0x3A42) [(0xA#4, 0x42#8)]) (fun t => t.pc) = some 0x204#16 ∧
    see (withV (boot 0x3A42) [(0xA#4, 0x41#8)]) (fun t => t.pc) = some 0x202#16 := by decide
/-- V-CF-10 and V-CF-11. -/
theorem test_sneImm : see (withV (boot 0x4A42) [(0xA#4, 0x42#8)]) (fun t => t.pc) = some 0x202#16 ∧
    see (withV (boot 0x4A42) [(0xA#4, 0x41#8)]) (fun t => t.pc) = some 0x204#16 := by decide
/-- V-CF-14 and V-CF-13. -/
theorem test_seReg : see (withV (boot 0x5123) [(1#4, 7#8), (2#4, 7#8)]) (fun t => t.pc) = some 0x204#16 ∧
    see (withV (boot 0x5120) [(1#4, 7#8), (2#4, 8#8)]) (fun t => t.pc) = some 0x202#16 := by decide
/-- V-CF-15 and V-CF-16. -/
theorem test_sneReg : see (withV (boot 0x9120) [(1#4, 7#8), (2#4, 7#8)]) (fun t => t.pc) = some 0x202#16 ∧
    see (withV (boot 0x9120) [(1#4, 7#8), (2#4, 8#8)]) (fun t => t.pc) = some 0x204#16 := by decide
/-- V-CF-18. -/
theorem test_jpV0 : see (withV (boot 0xBFFF) [(0#4, 0xFF#8)]) (fun t => t.pc) = some 0x10FE#16 := by decide

/-! ### ALU (V-ALU) -/

/-- V-ALU-1. -/
theorem test_ldImm : see (boot 0x6A42) (fun t => (t.getV 0xA#4, t.pc)) = some (0x42#8, 0x202#16) := by decide
/-- V-ALU-2. -/
theorem test_addImm : see (withV (boot 0x70FF) [(0#4, 2#8), (0xF#4, 7#8)]) (fun t => (t.getV 0#4, t.getV 0xF#4)) =
    some (1#8, 7#8) := by decide
/-- V-ALU-4. -/
theorem test_ldReg : see (withV (boot 0x8010) [(1#4, 0xAB#8)]) (fun t => (t.getV 0#4, t.getV 1#4)) =
    some (0xAB#8, 0xAB#8) := by decide
/-- V-ALU-5. -/
theorem test_or : see (withV (boot 0x8011) [(0#4, 0xF0#8), (1#4, 0x0F#8), (0xF#4, 0x55#8)])
    (fun t => (t.getV 0#4, t.getV 0xF#4)) = some (0xFF#8, 0x55#8) := by decide
/-- V-ALU-6. -/
theorem test_and : see (withV (boot 0x8012) [(0#4, 0xF0#8), (1#4, 0x3C#8), (0xF#4, 0x55#8)])
    (fun t => (t.getV 0#4, t.getV 0xF#4)) = some (0x30#8, 0x55#8) := by decide
/-- V-ALU-7. -/
theorem test_xor : see (withV (boot 0x8013) [(0#4, 0xF0#8), (1#4, 0x3C#8), (0xF#4, 0x55#8)])
    (fun t => (t.getV 0#4, t.getV 0xF#4)) = some (0xCC#8, 0x55#8) := by decide
/-- V-ALU-9 and V-ALU-10. -/
theorem test_addReg :
    see (withV (boot 0x8014) [(0#4, 0x80#8), (1#4, 0x7F#8)]) (fun t => (t.getV 0#4, t.getV 0xF#4)) =
      some (0xFF#8, 0#8) ∧
    see (withV (boot 0x8014) [(0#4, 0x80#8), (1#4, 0x80#8)]) (fun t => (t.getV 0#4, t.getV 0xF#4)) =
      some (0#8, 1#8) := by decide
/-- V-ALU-12. -/
theorem test_addReg_vf : see (withV (boot 0x8F04) [(0xF#4, 0xFF#8), (0#4, 2#8)]) (fun t => t.getV 0xF#4) =
    some 1#8 := by decide
/-- V-ALU-14 and V-ALU-15. -/
theorem test_sub :
    see (withV (boot 0x8015) [(0#4, 3#8), (1#4, 5#8)]) (fun t => (t.getV 0#4, t.getV 0xF#4)) = some (0xFE#8, 0#8) ∧
    see (withV (boot 0x8015) [(0#4, 7#8), (1#4, 7#8)]) (fun t => (t.getV 0#4, t.getV 0xF#4)) = some (0#8, 1#8) := by
  decide
/-- V-ALU-17 and V-ALU-19. -/
theorem test_shr :
    see (withV (boot 0x8016) [(0#4, 5#8), (1#4, 0xFF#8)]) (fun t => (t.getV 0#4, t.getV 1#4, t.getV 0xF#4)) =
      some (2#8, 0xFF#8, 1#8) ∧
    see (withV (boot 0x8F06) [(0xF#4, 3#8)]) (fun t => t.getV 0xF#4) = some 1#8 := by decide
/-- V-ALU-20 and V-ALU-21. -/
theorem test_subn :
    see (withV (boot 0x8017) [(0#4, 3#8), (1#4, 5#8)]) (fun t => (t.getV 0#4, t.getV 0xF#4)) = some (2#8, 1#8) ∧
    see (withV (boot 0x8017) [(0#4, 5#8), (1#4, 3#8)]) (fun t => (t.getV 0#4, t.getV 0xF#4)) = some (0xFE#8, 0#8) := by
  decide
/-- V-ALU-23 and V-ALU-24. -/
theorem test_shl :
    see (withV (boot 0x801E) [(0#4, 0x81#8)]) (fun t => (t.getV 0#4, t.getV 0xF#4)) = some (2#8, 1#8) ∧
    see (withV (boot 0x800E) [(0#4, 0x7F#8)]) (fun t => (t.getV 0#4, t.getV 0xF#4)) = some (0xFE#8, 0#8) := by decide
/-- V-ALU-26. -/
theorem test_rnd : see { boot 0xC00F with pending := [inp [] 0xAB#8] } (fun t => (t.getV 0#4, t.pending)) =
    some (0x0B#8, []) := by decide

/-! ### Index and memory (V-IDX) -/

/-- V-IDX-1. -/
theorem test_ldI : see (boot 0xA123) (fun t => t.i) = some 0x123#16 := by decide
/-- V-IDX-2 and V-IDX-3. -/
theorem test_addIVx :
    see { withV (boot 0xF01E) [(0#4, 1#8)] with i := 0xFFF#16 } (fun t => (t.i, t.getV 0xF#4)) =
      some (0x1000#16, 0#8) ∧
    see { withV (boot 0xF01E) [(0#4, 2#8)] with i := 0xFFFF#16 } (fun t => t.i) = some 1#16 := by decide
/-- V-IDX-6. -/
theorem test_ldFVx : see (withV (boot 0xF029) [(0#4, 0xF#8)]) (fun t => t.i) = some 0x9B#16 := by decide
/-- V-IDX-7. -/
theorem test_ldFVx_fault : see (withV (boot 0xF029) [(0#4, 0x10#8)]) (fun t => (t.i, t.fault)) =
    some (0#16, rec200 (.invalidDigit 0x10#8) 0xF029#16) := by decide
/-- V-IDX-9. -/
theorem test_ldBVx : see { withV (boot 0xF033) [(0#4, 123#8)] with i := 0xFFD#16 }
    (fun t => [t.mem.read 0xFFD, t.mem.read 0xFFE, t.mem.read 0xFFF]) = some [1#8, 2#8, 3#8] := by decide
/-- V-IDX-10. -/
theorem test_ldBVx_fault : see { withV (boot 0xF033) [(0#4, 123#8)] with i := 0xFFE#16 }
    (fun t => (t.mem.read 0xFFE, t.fault)) = some (0#8, rec200 (.memoryOutOfBounds 0x1000) 0xF033#16) := by decide
/-- V-IDX-12. -/
theorem test_ldMemVx : see { withV (boot 0xF155) [(0#4, 1#8), (1#4, 2#8)] with i := 0xFFE#16 }
    (fun t => ([t.mem.read 0xFFE, t.mem.read 0xFFF], t.i)) = some ([1#8, 2#8], 0xFFE#16) := by decide
/-- V-IDX-13. -/
theorem test_ldMemVx_fault : see { withV (boot 0xF255) [(0#4, 1#8), (1#4, 2#8), (2#4, 3#8)] with i := 0xFFE#16 }
    (fun t => (t.mem.read 0xFFE, t.fault)) = some (0#8, rec200 (.memoryOutOfBounds 0x1000) 0xF255#16) := by decide
/-- V-IDX-15. -/
theorem test_ldVxMem : see { boot 0xFF65 with i := 0x50#16 } (fun t => (t.v.toList, t.i)) =
    some ([0xF0#8, 0x90#8, 0x90#8, 0x90#8, 0xF0#8, 0x20#8, 0x60#8, 0x20#8, 0x20#8, 0x70#8, 0xF0#8, 0x10#8, 0xF0#8,
      0x80#8, 0xF0#8, 0xF0#8], 0x50#16) := by decide
/-- V-IDX-16. -/
theorem test_ldVxMem_fault : see { boot 0xF165 with i := 0xFFF#16 } (fun t => (t.v, t.fault)) =
    some (State.reset.v, rec200 (.memoryOutOfBounds 0x1000) 0xF165#16) := by decide

/-! ### Keypad and timers (V-KT) -/

/-- V-KT-1 and V-KT-2. -/
theorem test_skp :
    see { withV (boot 0xE19E) [(1#4, 5#8)] with pending := [inp [5] 0#8] } (fun t => t.pc) = some 0x204#16 ∧
    see (withV (boot 0xE19E) [(1#4, 5#8)]) (fun t => t.pc) = some 0x202#16 := by decide
/-- V-KT-5. -/
theorem test_skp_fault :
    see { withV (boot 0xE19E) [(1#4, 0x10#8)] with pending := [inp (List.range 16) 0#8] } (fun t => (t.keys, t.fault)) =
      some (pressed [], rec200 (.keyIndexOutOfRange 0x10#8) 0xE19E#16) := by decide
/-- V-KT-3 and V-KT-4. -/
theorem test_sknp :
    see { withV (boot 0xE1A1) [(1#4, 5#8)] with pending := [inp [5] 0#8] } (fun t => t.pc) = some 0x202#16 ∧
    see (withV (boot 0xE1A1) [(1#4, 5#8)]) (fun t => t.pc) = some 0x204#16 := by decide
/-- V-KT-6. -/
theorem test_ldVxDt : see { boot 0xF307 with dt := 0x10#8 } (fun t => (t.getV 3#4, t.dt)) = some (0x10#8, 0x0F#8) := by
  decide
/-- V-KT-8. -/
theorem test_ldDtVx : see (withV (boot 0xF015) [(0#4, 3#8)]) (fun t => t.dt) = some 2#8 := by decide
/-- V-KT-11. -/
theorem test_ldStVx : see { withV (boot 0xF218) [(2#4, 0xFF#8)] with dt := 1#8 } (fun t => (t.st, t.dt)) =
    some (0xFE#8, 0#8) := by decide
/-- V-KT-12. -/
theorem test_ldVxK_waits : see { withV (boot 0xF50A) [(5#4, 9#8)] with dt := 3#8 }
    (fun t => (t.pc, t.dt, t.getV 5#4)) = some (0x200#16, 2#8, 9#8) := by decide
/-- V-KT-13. -/
theorem test_ldVxK : see { boot 0xF50A with pending := [inp [3, 9] 0#8] } (fun t => (t.getV 5#4, t.pc)) =
    some (3#8, 0x202#16) := by decide

/-! ### Witnesses: concrete states and operands that meet the hypotheses of each statement -/

/-- The state with I and some registers set. -/
def atI (a : Word) (rs : List (Reg × Byte)) : State := { withV (boot 0) rs with i := a }

theorem witness_unclaimedWord_0_8 : unclaimedWord 0x0001#16 ∧ unclaimedWord 0x0FFF#16 ∧ unclaimedWord 0x8008#16 ∧
    unclaimedWord 0x800F#16 := by
  unfold unclaimedWord; decide
theorem witness_unclaimedWord_E_F : unclaimedWord 0xE000#16 ∧ unclaimedWord 0xE00F#16 ∧ unclaimedWord 0xF066#16 := by
  unfold unclaimedWord; decide
theorem witness_claimedWord_0_8 : ¬ unclaimedWord 0x0000#16 ∧ ¬ unclaimedWord 0x800E#16 := by
  unfold unclaimedWord; decide
theorem witness_claimedWord_E_F : ¬ unclaimedWord 0xE091#16 ∧ ¬ unclaimedWord 0xF065#16 := by
  unfold unclaimedWord; decide
theorem witness_single_group : (0x5120#16 : Word).toNat / 4096 ∉ [0x0, 0x8, 0xE, 0xF] := by decide
theorem witness_wellFormed : (Instr.sysNop 0xFFF#12).WellFormed ∧ (Instr.nop8 0xF#4).WellFormed ∧
    (Instr.nopE 0x0#4).WellFormed ∧ (Instr.nopF 0x00#8).WellFormed ∧ (Instr.drw 0xF#4 0xF#4 0xF#4).WellFormed := by
  decide
theorem witness_StepRunsDecodedInstruction :
    let s := { withM (boot 0) 0xFFE [0x6A#8, 0x02#8] with pc := 0xFFE#16 }
    s.fault = none ∧ s.pc.toNat < 0xFFF ∧
      (0x6A02#16 : Word).toNat = 256 * (s.mem.read s.pc.toNat).toNat + (s.mem.read (s.pc.toNat + 1)).toNat :=
  ⟨rfl, by decide, rfl⟩
theorem witness_FetchAboveMemoryFaults : ({ boot 0 with pc := 0xFFF#16 }).fault = none ∧
    0xFFE < ({ boot 0 with pc := 0xFFF#16 }).pc.toNat ∧ 0xFFE < ({ boot 0 with pc := 0xFFFF#16 }).pc.toNat := by decide
theorem witness_FaultedCoreHalts :
    { boot 0 with fault := rec200 .stackOverflow 0x2300#16 }.fault = some ⟨.stackOverflow, 0x200#16, some 0x2300#16⟩ := by
  decide
theorem witness_FaultsExactly_stack : (boot 0).fault = none ∧
    { boot 0 with sp := 16 }.CauseFits (.call 0x300#12) .stackOverflow ∧ (boot 0).CauseFits .ret .stackUnderflow :=
  ⟨rfl, ⟨⟨_, rfl⟩, rfl⟩, ⟨rfl, rfl⟩⟩
theorem witness_FaultsExactly_values :
    (atI 0#16 [(2#4, 16#8)]).CauseFits (.ldFVx 2#4) (.invalidDigit 16#8) ∧
    (atI 0#16 [(2#4, 16#8)]).CauseFits (.skp 2#4) (.keyIndexOutOfRange 16#8) ∧
    (atI 0#16 [(2#4, 16#8)]).CauseFits (.sknp 2#4) (.keyIndexOutOfRange 16#8) :=
  ⟨⟨_, rfl, rfl, by decide⟩, ⟨_, .inl rfl, rfl, by decide⟩, ⟨_, .inr rfl, rfl, by decide⟩⟩
theorem witness_FaultsExactly_memory :
    (atI 0xFFF#16 []).CauseFits (.drw 0#4 0#4 2#4) (.memoryOutOfBounds 0x1000) ∧
    (atI 0xFFE#16 []).CauseFits (.ldBVx 0#4) (.memoryOutOfBounds 0x1000) ∧
    (atI 0xFFF#16 []).CauseFits (.ldMemVx 1#4) (.memoryOutOfBounds 0x1000) ∧
    (atI 0x1001#16 []).CauseFits (.ldVxMem 0#4) (.memoryOutOfBounds 0x1001) ∧
    ¬ (atI 0xFFF#16 []).CauseFits (.drw 0#4 0#4 1#4) (.memoryOutOfBounds 0x1000) := by
  unfold State.CauseFits; decide
theorem witness_StepKeepsInvariant : (boot 0x6A02).Inv ∧ ∃ t, step (boot 0x6A02) = .next t :=
  ⟨⟨by decide, rfl, by decide, by decide, fun _ h => by cases h⟩, _, rfl⟩
theorem witness_LoadCopiesImage :
    State.reset.loadOpen = true ∧ (List.replicate 0xE00 0x60#8).length ≤ 0xE00 ∧
      0xE00 < (List.replicate 0xE01 0x60#8).length ∧ { State.reset with loadOpen := false }.loadOpen = false :=
  ⟨rfl, (List.length_replicate ..).le, by rw [List.length_replicate]; decide, rfl⟩
theorem witness_LoadThenCycleRunsFirstWord : ∀ p ∈ [(([] : List Byte), 0x0000#16), ([0x60#8], 0x6000#16),
      ([0x60#8, 0x05#8], 0x6005#16)],
    p.1.length ≤ 0xE00 ∧ (p.2 : Word).toNat = 256 * (p.1.getD 0 0#8).toNat + (p.1.getD 1 0#8).toNat := by decide
theorem witness_ZeroedMemoryClearsScreen :
    let s := { State.reset with pc := 0xFFE#16, fb := allOn }
    s.fault = none ∧ s.pc.toNat < 0xFFF ∧ s.mem.read s.pc.toNat = 0#8 ∧ s.mem.read (s.pc.toNat + 1) = 0#8 := by decide
theorem witness_SelfJumpStays : (boot 0x1200).AtSelfJump := ⟨rfl, 0x1200#16, 0x200#12, rfl, rfl, rfl⟩
theorem witness_GeneralRegisterWriters :
    (∃ t, exec (.addReg 1#4 2#4) (boot 0x8124) = .next t) ∧ ¬ (Instr.addReg 1#4 2#4).WritesV 2#4 ∧
      ¬ (Instr.ldVxMem 3#4).WritesV 4#4 :=
  ⟨⟨_, rfl⟩, by unfold Instr.WritesV; decide, by unfold Instr.WritesV; decide⟩
theorem witness_GeneralRegisterWriters_wait :
    (∃ t, exec (.ldVxK 5#4) (boot 0xF50A) = .next t) ∧ ∀ k : Fin 16, (boot 0xF50A).hostInput.keys[k] = false :=
  ⟨⟨_, rfl⟩, by decide⟩
/-- For TimersTickEveryCycle, PcAfterEveryInstruction, IndexRegisterWriters, StackWriters, SoundTimerIsNeverRead. -/
theorem witness_completed_cycle : (boot 0x2300).fault = none ∧ ∃ t, exec (.call 0x300#12) (boot 0x2300) = .next t ∧
    t.fault = none ∧ t.stack[0] ≠ (boot 0x2300).stack[0] := ⟨rfl, _, rfl, rfl, by decide⟩
theorem witness_timer_load : (boot 0).fault = none ∧ (∃ t, exec (.ldDtVx 0#4) (boot 0) = .next t ∧ t.fault = none) ∧
    ∃ t, exec (.ldStVx 0#4) (boot 0) = .next t ∧ t.fault = none := ⟨rfl, ⟨_, rfl, rfl⟩, ⟨_, rfl, rfl⟩⟩
theorem witness_IndexRegisterWriters : (∃ t, exec (.ldFVx 0#4) (atI 0#16 [(0#4, 15#8)]) = .next t) ∧
    ∃ t, exec (.ldFVx 0#4) (atI 0#16 [(0#4, 16#8)]) = .next t := ⟨⟨_, rfl⟩, ⟨_, rfl⟩⟩
theorem witness_FramebufferWriters : (∃ t, exec (.ldImm 1#4 2#8) (boot 0) = .next t) ∧ Instr.ldImm 1#4 2#8 ≠ .cls ∧
    ∀ x y n, Instr.ldImm 1#4 2#8 ≠ .drw x y n := ⟨⟨_, rfl⟩, by decide, fun _ _ _ h => by cases h⟩
theorem witness_MemoryAccesses_read :
    let s := { boot 0xF265 with i := 0x300#16 }
    let m := s.mem.write 0x303 7#8
    s.fault = none ∧ (match s.fetch with | .ok w => decide (w = 0xF265#16) | .error _ => false) = true ∧
      m.read s.pc.toNat = s.mem.read s.pc.toNat ∧ m.read (s.pc.toNat + 1) = s.mem.read (s.pc.toNat + 1) ∧
      ∀ k, k < (decode 0xF265#16).readLen → m.read (s.i.toNat + k) = s.mem.read (s.i.toNat + k) := by decide
theorem witness_MemoryAccesses_next : (boot 0xF265).fetch = .ok 0xF265#16 ∧ ∃ t, step (boot 0xF265) = .next t :=
  ⟨rfl, _, rfl⟩
theorem witness_InputsAreRead :
    (∃ t, exec (.ldImm 1#4 2#8) { boot 0 with pending := inp [5] 1#8 :: [] } = .next t) ∧
      (inp [5] 1#8).keys = (inp [5] 2#8).keys ∧ (inp [5] 1#8).rand = (inp [6] 1#8).rand ∧
      (∀ x kk, Instr.ldImm 1#4 2#8 ≠ .rnd x kk) ∧
      ∀ x, Instr.ldImm 1#4 2#8 ≠ .skp x ∧ Instr.ldImm 1#4 2#8 ≠ .sknp x ∧ Instr.ldImm 1#4 2#8 ≠ .ldVxK x :=
  ⟨⟨_, rfl⟩, rfl, rfl, by simp, by simp⟩
theorem witness_CanonicalMemory : Memory.wf (Memory.write (Memory.write [] 0x300 7#8) 0x2FF 8#8) ∧
    Memory.write (Memory.write [] 0x300 7#8) 0x2FF 8#8 = Memory.write (Memory.write [] 0x2FF 8#8) 0x300 7#8 := by decide
/-- For DrwXorsSpriteOntoGrid and DrwCollisionFlag: a height of 0 anywhere, and a sprite that ends at 0xFFF. -/
theorem witness_DrwInside : (0#4 : Nibble).toNat = 0 ∧
    (atI 0xFFE#16 []).i.toNat + (2#4 : Nibble).toNat ≤ 0x1000 := by decide
theorem allOn_get {px py : Nat} (hx : px < 64) (hy : py < 32) : Framebuffer.get allOn px py = true := by
  unfold Framebuffer.get
  rw [dif_pos ⟨hx, hy⟩]
  simp [allOn]
theorem witness_DrwCollisionFlag_on :
    let s := { withM (atI 0x300#16 []) 0x300 [0xC0#8] with fb := allOn }
    ∃ t, exec (.drw 0#4 0#4 1#4) s = .next t ∧ s.fb.get 1 0 = true ∧ t.fb.get 1 0 = false := ⟨_, rfl, by decide⟩
theorem witness_DrwCollisionFlag_off :
    ∃ t, exec (.drw 0#4 0#4 0#4) { atI 0xFFFF#16 [] with fb := allOn } = .next t ∧
      ∀ px py, px < 64 → py < 32 → t.fb.get px py = true := ⟨_, rfl, fun _ _ => allOn_get⟩
theorem witness_DrwOutsideMemoryFaults : (2#4 : Nibble).toNat ≠ 0 ∧
    0x1000 < (atI 0xFFF#16 []).i.toNat + (2#4 : Nibble).toNat := by decide
theorem witness_DoubleDraw :
    let s := withM (atI 0x300#16 []) 0x300 [0xC0#8]
    s.i.toNat + (1#4 : Nibble).toNat ≤ 0x1000 ∧ s.spriteBit 0#4 0#4 1#4 1 0 = true ∧ s.fb.get 1 0 = false ∧
      ∃ t, exec (.drw 0#4 0#4 1#4) s = .next t ∧ t.i = s.i ∧ t.getV 0#4 = s.getV 0#4 ∧
        ∀ k, k < (1#4 : Nibble).toNat → t.mem.read (s.i.toNat + k) = s.mem.read (s.i.toNat + k) :=
  ⟨by decide, by decide, by decide, _, rfl, by decide⟩
theorem witness_DoubleDraw_allOn :
    (∃ t, exec (.drw 0#4 0#4 1#4) { atI 0x300#16 [] with fb := allOn } = .next t) ∧
      ∀ px py, px < 64 → py < 32 → { atI 0x300#16 [] with fb := allOn }.fb.get px py = true :=
  ⟨⟨_, rfl⟩, fun _ _ => allOn_get⟩
/-- For CallPushesReturnAddress, RetPopsReturnAddress and StackLimitsFault. -/
theorem witness_stack_limits : ({ boot 0 with sp := 15 }).sp.val < 16 ∧ 0 < ({ boot 0 with sp := 1 }).sp.val ∧
    ({ boot 0 with sp := 16 }).sp = 16 ∧ (boot 0).sp = 0 := by decide
theorem witness_RetReturnsBehindCall : ({ boot 0 with sp := 15 }).sp.val < 16 ∧
    ∃ t u, exec (.call 0x300#12) { boot 0 with sp := 15 } = .next t ∧ u = { t with pc := 0x300#16 } ∧ u.sp = t.sp ∧
      ∀ k : Fin 16, u.stack[k] = t.stack[k] := ⟨by decide, _, _, rfl, rfl, rfl, fun _ => rfl⟩
theorem witness_SkipsAddTwoToAdvancedPc : ((atI 0#16 [(1#4, 15#8)]).getV 1#4).toNat = (15 : Fin 16).val := by decide
theorem witness_LdFPointsAtGlyph : ((atI 0#16 [(1#4, 15#8)]).getV 1#4).toNat ≤ 15 ∧
    15 < ((atI 0#16 [(1#4, 16#8)]).getV 1#4).toNat := by decide
theorem witness_LdBStoresDecimalDigits : (atI 0xFFD#16 []).i.toNat ≤ 0xFFD ∧ 0xFFD < (atI 0xFFE#16 []).i.toNat := by
  decide
/-- For LdMemStoresRegisters, LdVxMemLoadsRegisters and DumpThenLoadRestoresRegisters. -/
theorem witness_register_block : (atI 0xFF0#16 []).i.toNat + (0xF#4 : Reg).toNat ≤ 0xFFF ∧
    0xFFF < (atI 0xFF1#16 []).i.toNat + (0xF#4 : Reg).toNat ∧ (0x3#4 : Reg) ≤ 0x3#4 := by decide
theorem witness_DumpThenLoad : ∃ t u, exec (.ldMemVx 0xF#4) (atI 0xFF0#16 []) = .next t ∧
    u = { boot 0 with i := t.i, mem := t.mem } ∧ u.i = t.i ∧
      ∀ k, k ≤ (0xF#4 : Reg).toNat → u.mem.read (0xFF0 + k) = t.mem.read (0xFF0 + k) :=
  ⟨_, _, rfl, rfl, rfl, fun _ _ => rfl⟩
theorem witness_StoreIsSeenByNextFetch :
    let s := { withV (boot 0xF255) [(1#4, 0x6A#8), (2#4, 0x02#8)] with i := 0x201#16 }
    s.fault = none ∧ s.i.toNat + (2#4 : Reg).toNat ≤ 0xFFF ∧ (2#4 : Reg).toNat = (1#4 : Reg).toNat + 1 ∧
      (2#4 : Reg) ≤ 2#4 ∧ (s.pc + 2#16).toNat = s.i.toNat + (1#4 : Reg).toNat ∧
      (0x6A02#16 : Word).toNat = 256 * (s.getV 1#4).toNat + (s.getV 2#4).toNat := by decide
theorem witness_KeySkipsExcludeEachOther : ((atI 0#16 [(1#4, 15#8)]).getV 1#4).toNat ≤ 15 ∧
    15 < ((atI 0#16 [(1#4, 16#8)]).getV 1#4).toNat := by decide
theorem witness_LdKWaitsForLowestKey :
    let s := { boot 0xF50A with pending := [inp [3, 9] 0#8] }
    s.hostInput.keys[(3 : Fin 16)] = true ∧ (∀ j : Fin 16, j < 3 → s.hostInput.keys[j] = false) ∧
      ∀ k : Fin 16, (boot 0xF50A).hostInput.keys[k] = false := by decide
theorem witness_FaultRecords_fetch : ∃ t, step { boot 0 with pc := 0xFFF#16 } = .next t ∧
    t.fault = some ⟨.memoryOutOfBounds 0x1000, 0xFFF#16, none⟩ := ⟨_, rfl, rfl⟩
theorem witness_FaultRecords_stack : (boot 0).fault = none ∧
    (∃ t r, exec (.call 0x300#12) { boot 0 with sp := 16 } = .next t ∧ t.fault = some r ∧ r.code = 1) ∧
    ∃ t r, exec .ret (boot 0) = .next t ∧ t.fault = some r ∧ r.code = 2 :=
  ⟨rfl, ⟨_, _, rfl, rfl, rfl⟩, ⟨_, _, rfl, rfl, rfl⟩⟩
theorem witness_FaultRecords_values :
    (∃ t r, exec (.ldFVx 2#4) (atI 0#16 [(2#4, 16#8)]) = .next t ∧ t.fault = some r ∧ r.code = 3) ∧
    ∃ t r, exec (.sknp 2#4) (atI 0#16 [(2#4, 16#8)]) = .next t ∧ t.fault = some r ∧ r.code = 5 :=
  ⟨⟨_, _, rfl, rfl, rfl⟩, ⟨_, _, rfl, rfl, rfl⟩⟩
theorem witness_FaultRecords_memory :
    (∃ t r, exec (.drw 0#4 0#4 2#4) (atI 0xFFF#16 []) = .next t ∧ t.fault = some r ∧ r.code = 4) ∧
    (∃ t r, exec (.ldBVx 0#4) (atI 0xFFE#16 []) = .next t ∧ t.fault = some r ∧ r.code = 4) ∧
    (∃ t r, exec (.ldMemVx 1#4) (atI 0xFFF#16 []) = .next t ∧ t.fault = some r ∧ r.code = 4) ∧
    ∃ t r, exec (.ldVxMem 1#4) (atI 0xFFF#16 []) = .next t ∧ t.fault = some r ∧ r.code = 4 :=
  ⟨⟨_, _, rfl, rfl, rfl⟩, ⟨_, _, rfl, rfl, rfl⟩, ⟨_, _, rfl, rfl, rfl⟩, ⟨_, _, rfl, rfl, rfl⟩⟩
/-- The bound of the invariant on the pc is met (R24). -/
theorem witness_pc_bound : ∃ t, exec (.jpV0 0xFFF#12) (atI 0#16 [(0#4, 0xFF#8)]) = .next t ∧ t.pc.toNat = 0x10FE :=
  ⟨_, rfl, by decide⟩

end Sys2Proof.Tests
end

/-! SUPPORT. The state family (spec/10_state.md): which instruction writes and which reads each element of the state, and
the invariant that every step keeps. -/

namespace Sys2Proof.Machine

/-! ### Every answer of `exec` -/

/-- What holds of the completed cycle and of every fault taken holds of the state that `exec` answers. -/
theorem exec_next_of_effect_of_fault {P : State → Prop} {i : Instr} {s t : State} (h : exec i s = .next t)
    (heffect : P (s.effect i).endCycle) (hfault : ∀ c, P (s.takeFault c)) : P t := by
  rcases exec_next_cases h with ⟨_, rfl⟩ | ⟨c, _, rfl⟩
  · exact heffect
  · exact hfault c

/-- The fault conditions read the general registers, I and SP alone (R200). -/
theorem State.causeFits_congr {s u : State} (hv : u.v = s.v) (hi : u.i = s.i) (hsp : u.sp = s.sp) (i : Instr)
    (c : Cause) : u.CauseFits i c ↔ s.CauseFits i c := by
  cases c <;> simp only [State.CauseFits, State.getV, hv, hi, hsp]

/-- Two states that meet the same fault conditions both complete the instruction, or both take the same fault. -/
theorem exec_next_of_causeFits_iff {i : Instr} {s t u : State} (h : exec i s = .next t)
    (hcause : ∀ c, u.CauseFits i c ↔ s.CauseFits i c) :
    (t = (s.effect i).endCycle ∧ exec i u = .next (u.effect i).endCycle) ∨
    ∃ c, t = s.takeFault c ∧ exec i u = .next (u.takeFault c) := by
  rcases exec_next_cases h with ⟨hnone, rfl⟩ | ⟨c, hc, rfl⟩ <;> rcases exec_cases i u with ⟨hnone', hu⟩ | ⟨d, hd, hu⟩
  · exact .inl ⟨rfl, hu⟩
  · exact absurd ((hcause d).1 hd) (hnone d)
  · exact absurd ((hcause c).2 hc) (hnone' c)
  · obtain rfl := State.causeFits_unique hc ((hcause d).1 hd)
    exact .inr ⟨c, rfl, hu⟩

/-! ### The invariant -/

/-- The fetch reads the pc and memory alone (R91). -/
theorem State.fetch_congr {s u : State} (hpc : u.pc = s.pc) (hmem : u.mem = s.mem) : u.fetch = s.fetch := by
  simp only [State.fetch, State.memRead, hpc, hmem]

/-- A fetch that succeeds leaves room for the advance: both its bytes lie in memory. -/
theorem State.pc_le_of_fetch_ok {s : State} {w : Word} (h : s.fetch = .ok w) : s.pc.toNat ≤ 0xFFE := by
  by_contra hpc
  rw [s.fetch_error (by omega)] at h
  cases h

/-- With no fault condition met, the bytes an instruction accesses from I on lie in memory. -/
theorem State.access_inside {s : State} {i : Instr} (h : ∀ c, ¬ s.CauseFits i c) :
    i.readLen + i.storeLen = 0 ∨ s.i.toNat + (i.readLen + i.storeLen) ≤ 0x1000 := by
  by_contra hout
  exact h (.memoryOutOfBounds (max s.i.toNat 0x1000)) ⟨rfl, by omega⟩

/-- An instruction that meets no fault condition keeps memory canonical. -/
theorem State.effect_mem_wf {s : State} {i : Instr} (hmem : s.mem.wf) (h : ∀ c, ¬ s.CauseFits i c) :
    (s.effect i).mem.wf := by
  have hin := State.access_inside h
  have hkept : i.storeLen = 0 → (s.effect i).mem.wf := fun hnostore => by rwa [State.effect_mem hnostore]
  cases i with
  | ldBVx x => exact Memory.wf_copy _ hmem (.inr (by simpa [Instr.readLen, Instr.storeLen, bcdDigits] using hin))
  | ldMemVx x =>
    refine Memory.wf_copy _ hmem (.inr ?_)
    simpa [Instr.readLen, Instr.storeLen, s.regsUpTo_length] using hin
  | _ => exact hkept rfl

/-- A skip from an instruction inside memory ends at most 4 above it (R118). -/
theorem State.skipIf_pc_le {s : State} (hpc : s.pc.toNat ≤ 0xFFE) (c : Bool) :
    (s.beginCycle.skipIf c).pc.toNat ≤ 0x1002 := by
  cases c <;> simp <;> omega

/-- What RET reads from a stack within the bound is within it, or is the 0 of an entry that does not exist. -/
theorem State.stack_getD_le {s : State} (hstack : ∀ k : Fin 16, s.stack[k].toNat ≤ 0x1000) (n : Nat) :
    (s.stack.toList.getD n 0#16).toNat ≤ 0x1000 := by
  by_cases hn : n < 16
  · simpa [hn] using hstack ⟨n, hn⟩
  · simp [hn]

/-- From an instruction inside memory the pc goes at most to 0x10FE, the highest target of JP V0 (R24). -/
theorem State.effect_pc_le {s : State} (i : Instr) (hpc : s.pc.toNat ≤ 0xFFE)
    (hstack : ∀ k : Fin 16, s.stack[k].toNat ≤ 0x1000) : (s.effect i).pc.toNat ≤ 0x10FE := by
  have hadvanced : (s.pc + 2#16).toNat ≤ 0x1000 := by bv_omega
  have hskip := fun c => (State.skipIf_pc_le hpc c).trans (show 0x1002 ≤ 0x10FE by omega)
  cases i with
  | ret => exact (State.stack_getD_le hstack _).trans (by omega)
  | jp nnn | call nnn => simp only [State.effect, State.jump_pc]; bv_omega
  | jpV0 nnn => simp only [State.effect, State.jump_pc]; bv_omega
  | seImm | sneImm | seReg | sneReg | skp | sknp => exact hskip _
  | ldVxK x =>
    simp only [State.effect, State.jump_pc]
    split <;> omega
  | _ => exact hadvanced.trans (by omega)

/-- The only stack entry that an instruction writes is the advanced pc, pushed by CALL at SP (R26, R112). -/
theorem State.effect_stack_getElem (s : State) (i : Instr) (k : Fin 16) :
    (s.effect i).stack[k] = s.stack[k] ∨
      ((∃ nnn, i = .call nnn) ∧ k.val = s.sp.val ∧ (s.effect i).stack[k] = s.pc + 2#16) := by
  by_cases hcall : ∃ nnn, i = .call nnn
  · obtain ⟨nnn, rfl⟩ := hcall
    by_cases hk : s.sp.val = k.val
    · exact .inr ⟨⟨nnn, rfl⟩, hk.symm, by simp [State.effect, hk]⟩
    · exact .inl (by simp [State.effect, hk])
  · rw [State.effect_stack fun nnn hi => hcall ⟨nnn, hi⟩]
    exact .inl rfl

/-- A taken fault keeps the invariant, when its record is sound for the state from before the cycle (R201). -/
theorem State.inv_takeFault {s u : State} {c : Cause} (hinv : s.Inv) (hpc : u.pc = s.pc) (hmem : u.mem = s.mem)
    (hstack : u.stack = s.stack) (hsound : (FaultRecord.mk c u.pc u.op).Sound (u.takeFault c)) :
    (u.takeFault c).Inv := by
  obtain ⟨hwf, -, hle, hentries, -⟩ := hinv
  refine ⟨?_, rfl, ?_, ?_, ?_⟩
  · simpa only [State.takeFault_mem, hmem] using hwf
  · simpa only [State.takeFault_pc, hpc] using hle
  · simpa only [State.takeFault_stack, hstack] using hentries
  · rintro r hr
    obtain rfl := Option.some.inj hr
    exact hsound

/-- The fault of a fetch keeps the invariant: the fetch fails again as recorded. -/
theorem State.inv_takeFetchFault {s : State} {c : Cause} (hinv : s.Inv) (hfetch : s.fetch = .error c) :
    (s.takeFetchFault c).Inv :=
  State.inv_takeFault hinv rfl rfl rfl ⟨rfl, (State.fetch_congr rfl rfl).trans hfetch⟩

/-- The fault of an instruction keeps the invariant: the fetch gives the recorded opcode, whose instruction still meets
the condition of the recorded cause. -/
theorem State.inv_takeFault_latch {s : State} {w : Word} {c : Cause} (hinv : s.Inv) (hfetch : s.fetch = .ok w)
    (hc : (s.latch w).CauseFits (decode w) c) : ((s.latch w).takeFault c).Inv :=
  State.inv_takeFault hinv rfl rfl rfl
    ⟨rfl, (State.fetch_congr rfl rfl).trans hfetch, (State.causeFits_congr rfl rfl rfl _ _).2 hc⟩

/-- A completed cycle of an instruction inside memory keeps the invariant. -/
theorem State.inv_endCycle {s : State} {w : Word} {i : Instr} (hinv : s.Inv) (hfault : s.fault = none)
    (hpc : s.pc.toNat ≤ 0xFFE) (hnone : ∀ c, ¬ (s.latch w).CauseFits i c) : ((s.latch w).effect i).endCycle.Inv := by
  obtain ⟨hwf, -, -, hstack, -⟩ := hinv
  refine ⟨State.effect_mem_wf hwf hnone, rfl, State.effect_pc_le i hpc hstack, fun k => ?_, ?_⟩
  · rw [State.endCycle_stack]
    rcases (s.latch w).effect_stack_getElem i k with hk | ⟨-, -, hk⟩ <;> rw [hk]
    · exact hstack k
    · rw [State.latch_pc]
      bv_omega
  · simp [hfault]

/-- Settles O13: a step is the fault of the fetch, or a cycle that completes or takes the fault of its instruction, and
each of the three keeps the invariant. -/
theorem stepKeepsInvariant : Obligations.StepKeepsInvariant := by
  unfold Obligations.StepKeepsInvariant
  intro s t hinv hstep
  cases hfault : s.fault with
  | some r => rw [step_faulted hfault] at hstep; cases hstep
  | none =>
    cases hfetch : s.fetch with
    | error c =>
      rw [step_fetch_error hfault hfetch] at hstep
      obtain rfl := Host.Outcome.next.inj hstep
      exact State.inv_takeFetchFault hinv hfetch
    | ok w =>
      rw [step_decoded hfault hfetch] at hstep
      rcases exec_next_cases hstep with ⟨hnone, rfl⟩ | ⟨c, hc, rfl⟩
      · exact State.inv_endCycle hinv hfault (State.pc_le_of_fetch_ok hfetch) hnone
      · exact State.inv_takeFault_latch hinv hfetch hc

/-! ### The step -/

/-- Settles O6: the fetched word is determined by its value, and latching it is the update of `op`. -/
theorem stepRunsDecodedInstruction : Obligations.StepRunsDecodedInstruction := by
  unfold Obligations.StepRunsDecodedInstruction
  intro s w hfault hpc hw
  have hword : joinBytes (s.mem.read s.pc.toNat) (s.mem.read (s.pc.toNat + 1)) = w :=
    BitVec.eq_of_toNat_eq ((joinBytes_toNat _ _).trans hw.symm)
  exact step_decoded hfault ((s.fetch_ok hpc).trans (congrArg Except.ok hword))

/-! ### General registers -/

/-- LD Vx,[I] loads no register above V[x]. -/
theorem State.loadedBytes_getElem?_of_not_le (s : State) {x r : Reg} (h : ¬ r ≤ x) :
    (s.loadedBytes x)[r.toNat]? = none := by
  have hlt : ¬ r.toNat ≤ x.toNat := h
  simp only [State.loadedBytes, List.getElem?_eq_none_iff, List.length_map, List.length_range]
  omega

/-- The execute step writes no general register but the listed ones (R22). -/
theorem State.getV_effect (s : State) {i : Instr} {r : Reg} (h : ¬ i.WritesV r) : (s.effect i).getV r = s.getV r := by
  cases i with
  | ldImm | addImm | rnd | ldVxDt | ldVxK | ldReg | orReg | andReg | xorReg | drw =>
    exact (State.getV_setV ..).trans (if_neg h)
  | addReg | sub | shr | subn | shl =>
    obtain ⟨hx, hflag⟩ := not_or.mp h
    exact (State.getV_setVFlag ..).trans ((if_neg hflag).trans (if_neg hx))
  | ldVxMem x =>
    rw [State.effect, State.getV_setVs, s.loadedBytes_getElem?_of_not_le h]
    rfl
  | _ => rfl

/-- Settles O18: the execute step writes the listed registers alone, a fault writes none, and a waiting LD Vx,K is a
jump to itself. -/
theorem generalRegisterWriters : Obligations.GeneralRegisterWriters := by
  unfold Obligations.GeneralRegisterWriters
  intro i s t h
  refine ⟨fun r hr => ?_, ?_⟩
  · exact exec_next_of_effect_of_fault (P := fun t => t.getV r = s.getV r) h (s.getV_effect hr) fun _ => rfl
  · rintro x rfl hkeys r -
    rw [exec_ldVxK_waiting x (s.beginCycle.pressedKey_eq_none hkeys)] at h
    obtain rfl := Host.Outcome.next.inj h
    rfl

/-! ### Index register -/

/-- An instruction other than LD I, ADD I and LD F leaves I, whether it completes or faults (R25). -/
theorem exec_next_i {i : Instr} {s t : State} (h : exec i s = .next t) (h1 : ∀ nnn, i ≠ .ldI nnn)
    (h2 : ∀ x, i ≠ .addIVx x) (h3 : ∀ x, i ≠ .ldFVx x) : t.i = s.i :=
  exec_next_of_effect_of_fault (P := fun t => t.i = s.i) h (State.effect_i h1 h2 h3) fun _ => rfl

/-- Settles O21: the three writers one by one, LD F with its fault, and all the others at once. -/
theorem indexRegisterWriters : Obligations.IndexRegisterWriters := by
  unfold Obligations.IndexRegisterWriters
  intro i s t h
  cases i with
  | ldI nnn =>
    obtain rfl := Host.Outcome.next.inj ((exec_ldI nnn).symm.trans h)
    apply BitVec.eq_of_toNat_eq
    simp
  | addIVx x =>
    obtain rfl := Host.Outcome.next.inj ((exec_addIVx x).symm.trans h)
    apply BitVec.eq_of_toNat_eq
    simp
  | ldFVx x =>
    by_cases hx : (s.getV x).toNat ≤ 15
    · obtain rfl := Host.Outcome.next.inj ((exec_ldFVx hx).symm.trans h)
      exact (if_neg (by omega)).symm
    · obtain rfl := Host.Outcome.next.inj ((exec_ldFVx_fault hx).symm.trans h)
      exact (if_pos (by omega)).symm
  | _ => exact exec_next_i h nofun nofun nofun

/-! ### Stack -/

/-- An instruction other than CALL and RET leaves SP, whether it completes or faults (R26). -/
theorem exec_next_sp {i : Instr} {s t : State} (h : exec i s = .next t) (hcall : ∀ nnn, i ≠ .call nnn)
    (hret : i ≠ .ret) : t.sp = s.sp :=
  exec_next_of_effect_of_fault (P := fun t => t.sp = s.sp) h (State.effect_sp hcall hret) fun _ => rfl

/-- The only stack entry that a cycle changes is the one at SP, by CALL (R26). -/
theorem exec_next_stack_getElem {i : Instr} {s t : State} (h : exec i s = .next t) (k : Fin 16) :
    t.stack[k] = s.stack[k] ∨ ((∃ nnn, i = .call nnn) ∧ k.val = s.sp.val) := by
  refine exec_next_of_effect_of_fault
    (P := fun t => t.stack[k] = s.stack[k] ∨ ((∃ nnn, i = .call nnn) ∧ k.val = s.sp.val)) h ?_ fun _ => .inl rfl
  exact (s.effect_stack_getElem i k).imp id fun ⟨hcall, hk, _⟩ => ⟨hcall, hk⟩

/-- Settles O22: SP moves by CALL and RET alone, and the entries follow from the one write that CALL does. -/
theorem stackWriters : Obligations.StackWriters := by
  unfold Obligations.StackWriters
  intro i s t h
  have hentry := exec_next_stack_getElem h
  refine ⟨fun hcall hret => ⟨exec_next_sp h hcall hret, fun k => ?_⟩, fun k hk => (hentry k).resolve_left hk⟩
  exact (hentry k).resolve_right fun ⟨⟨nnn, hi⟩, _⟩ => hcall nnn hi

/-- A completed or faulted CALL does not lower SP. -/
theorem exec_call_sp_le {nnn : Addr} {s t : State} (h : exec (.call nnn) s = .next t) : s.sp.val ≤ t.sp.val := by
  refine exec_next_of_effect_of_fault (P := fun t => s.sp.val ≤ t.sp.val) h ?_ fun _ => le_rfl
  show s.sp.val ≤ min (s.sp.val + 1) 16
  omega

/-- A completed or faulted RET does not raise SP. -/
theorem exec_ret_sp_le {s t : State} (h : exec .ret s = .next t) : t.sp.val ≤ s.sp.val :=
  exec_next_of_effect_of_fault (P := fun t => t.sp.val ≤ s.sp.val) h (Nat.sub_le _ 1) fun _ => le_rfl

/-- Settles O38: SP moves up by CALL and down by RET alone, and at its limits each takes its fault. -/
theorem stackLimitsFault : Obligations.StackLimitsFault := by
  unfold Obligations.StackLimitsFault
  refine ⟨fun i s t h => ⟨Nat.le_of_lt_succ t.sp.isLt, fun hup => ?_, fun hdown => ?_⟩, fun nnn s hsp => ?_,
    fun s hsp => ?_⟩
  · by_contra hcall
    by_cases hret : i = .ret
    · subst hret
      exact absurd (exec_ret_sp_le h) (by omega)
    · have hsp := exec_next_sp h (fun nnn hi => hcall ⟨nnn, hi⟩) hret
      omega
  · by_contra hret
    by_cases hcall : ∃ nnn, i = .call nnn
    · obtain ⟨nnn, rfl⟩ := hcall
      exact absurd (exec_call_sp_le h) (by omega)
    · have hsp := exec_next_sp h (fun nnn hi => hcall ⟨nnn, hi⟩) hret
      omega
  · exact ⟨_, exec_call_fault nnn (by simp [hsp]), s.faultTaken_takeFault _⟩
  · exact ⟨_, exec_ret_fault (by simp [hsp]), s.faultTaken_takeFault _⟩

/-! ### Framebuffer -/

/-- Settles O23: the execute step of any other instruction, and a fault, leave the framebuffer. -/
theorem framebufferWriters : Obligations.FramebufferWriters := by
  unfold Obligations.FramebufferWriters
  intro i s t h hcls hdrw px py
  have hfb : t.fb = s.fb :=
    exec_next_of_effect_of_fault (P := fun t => t.fb = s.fb) h (State.effect_fb hcls hdrw) fun _ => rfl
  rw [hfb]

/-! ### Sound timer -/

/-- The execute step does not read ST: from another ST it leaves the same state but for ST (R28, R34). -/
theorem State.effect_withST (s : State) (i : Instr) (b : Byte) :
    ∃ c, State.effect { s with st := b } i = { s.effect i with st := c } := by
  cases i with
  | ldStVx x => exact ⟨s.getV x, rfl⟩
  | _ => exact ⟨b, rfl⟩

/-- Settles O25: no fault condition and no execute step reads ST, and the tick reads it for ST alone. -/
theorem soundTimerIsNeverRead : Obligations.SoundTimerIsNeverRead := by
  unfold Obligations.SoundTimerIsNeverRead
  intro i s t b h
  rcases exec_next_of_causeFits_iff (u := { s with st := b }) h (State.causeFits_congr rfl rfl rfl i) with
    ⟨rfl, hu⟩ | ⟨c, rfl, hu⟩
  · obtain ⟨c, hc⟩ := s.effect_withST i b
    exact ⟨tickTimer c, by rw [hu, hc]; rfl⟩
  · exact ⟨b, hu⟩

/-! ### The inputs of a cycle -/

/-- A completed cycle of an instruction other than RND does not read the random byte (R99). -/
theorem State.endCycle_effect_of_keys_eq (s : State) {i : Instr} {a b : HostInput} (rest : List HostInput)
    (hkeys : a.keys = b.keys) (hrnd : ∀ x kk, i ≠ .rnd x kk) :
    (State.effect { s with pending := b :: rest } i).endCycle =
      (State.effect { s with pending := a :: rest } i).endCycle := by
  obtain ⟨ka, ra⟩ := a
  obtain ⟨kb, rb⟩ := b
  obtain rfl : ka = kb := hkeys
  cases i with
  | rnd x kk => exact absurd rfl (hrnd x kk)
  | _ => rfl

/-- A completed cycle of an instruction other than SKP, SKNP and LD Vx,K does not read the keypad snapshot, but leaves a
copy of it in K (R30, R99). -/
theorem State.endCycle_effect_of_rand_eq (s : State) {i : Instr} {a b : HostInput} (rest : List HostInput)
    (hrand : a.rand = b.rand) (hkey : ∀ x, i ≠ .skp x ∧ i ≠ .sknp x ∧ i ≠ .ldVxK x) :
    (State.effect { s with pending := b :: rest } i).endCycle =
      { (State.effect { s with pending := a :: rest } i).endCycle with keys := b.keys } := by
  obtain ⟨ka, ra⟩ := a
  obtain ⟨kb, rb⟩ := b
  obtain rfl : ra = rb := hrand
  cases i with
  | skp x => exact absurd rfl (hkey x).1
  | sknp x => exact absurd rfl (hkey x).2.1
  | ldVxK x => exact absurd rfl (hkey x).2.2
  | _ => rfl

/-- Settles O26: no fault condition reads an input, a fault leaves none behind, and a completed cycle reads the random
byte in RND alone and the snapshot in the key instructions alone. -/
theorem inputsAreReadByListedInstructions : Obligations.InputsAreReadByListedInstructions := by
  unfold Obligations.InputsAreReadByListedInstructions
  intro i s t a b rest h
  rcases exec_next_of_causeFits_iff (u := { s with pending := b :: rest }) h (State.causeFits_congr rfl rfl rfl i) with
    ⟨rfl, hu⟩ | ⟨c, rfl, hu⟩
  · refine ⟨fun hkeys hrnd => ?_, fun hrand hkey => ⟨b.keys, ?_⟩⟩
    · rw [hu, s.endCycle_effect_of_keys_eq rest hkeys hrnd]
    · rw [hu, s.endCycle_effect_of_rand_eq rest hrand hkey]
  · exact ⟨fun _ _ => hu, fun _ _ => ⟨s.keys, hu⟩⟩

end Sys2Proof.Machine

/-! SUPPORT. The memory family (spec/20_memory.md): the canonical form, `load`, the bytes a step reads and writes, and a
store that the next fetch sees. -/

namespace Sys2Proof.Machine

/-! ### The canonical form -/

/-- Where addresses strictly rise, every listed cell is what its address reads. -/
theorem Memory.read_of_mem {m : Memory} {c : Host.Cell} (hm : m.Pairwise fun c d => c.1 < d.1) (hc : c ∈ m) :
    m.read c.1 = c.2 := by
  induction m with
  | nil => cases hc
  | cons d m ih =>
    obtain ⟨hlt, hm⟩ := List.pairwise_cons.mp hm
    rcases List.mem_cons.mp hc with rfl | hc
    · exact if_pos rfl
    · exact (if_neg (hlt c hc).ne).trans (ih hm hc)

/-- An address that does not read as its reset contents is listed, with the byte it reads. -/
theorem Memory.mem_of_read_ne_blank {m : Memory} {a : Nat} (h : m.read a ≠ Memory.blank a) : (a, m.read a) ∈ m := by
  induction m with
  | nil => exact absurd rfl h
  | cons d m ih =>
    obtain ⟨b, w⟩ := d
    by_cases hb : b = a
    · subst hb
      simp [Memory.read]
    · simp only [Memory.read, if_neg hb] at h ⊢
      exact List.mem_cons_of_mem _ (ih h)

/-- A canonical memory lists no cell that another memory, which reads the same, does not list. -/
theorem Memory.subset_of_read_eq {m n : Memory} (hm : m.wf) (h : ∀ a, m.read a = n.read a) : m ⊆ n := by
  intro c hc
  have hread : n.read c.1 = c.2 := (h c.1).symm.trans (Memory.read_of_mem hm.1 hc)
  have hlisted := Memory.mem_of_read_ne_blank (m := n) (hread ▸ (hm.2 c hc).1)
  rwa [hread] at hlisted

/-- Settles O27: the two memories list the same cells, each in strictly rising order. -/
theorem canonicalMemoryIsDeterminedByReads : Obligations.CanonicalMemoryIsDeterminedByReads := by
  unfold Obligations.CanonicalMemoryIsDeterminedByReads
  intro m n hm hn h
  have hmn : m ⊆ n := Memory.subset_of_read_eq hm h
  have hnm : n ⊆ m := Memory.subset_of_read_eq hn fun a => (h a).symm
  have hanti : Std.Antisymm fun c d : Host.Cell => c.1 < d.1 := ⟨fun _ _ h1 h2 => absurd h2 h1.asymm⟩
  have hirrefl : Std.Irrefl fun c d : Host.Cell => c.1 < d.1 := ⟨fun c => Nat.lt_irrefl c.1⟩
  exact hm.1.eq_of_mem_iff hn.1 fun _ => ⟨@hmn _, @hnm _⟩

/-! ### Load -/

/-- The first `load` of an image of legal size copies it to 0x200 on (R64). -/
theorem State.load_ok {s : State} {bs : List Byte} (hopen : s.loadOpen = true) (hlen : bs.length ≤ 0xE00) :
    s.load bs = .next (.ok, { s with mem := s.mem.copy 0x200 bs, loadOpen := false }) := by
  simp [State.load, hopen, hlen]

/-- The first `load` reports a longer image and leaves memory (R64). -/
theorem State.load_programTooLarge {s : State} {bs : List Byte} (hopen : s.loadOpen = true) (hlen : 0xE00 < bs.length) :
    s.load bs = .next (.programTooLarge, { s with loadOpen := false }) := by
  simp [State.load, hopen, hlen]

/-- Any other `load` is refused (R64, D19). -/
theorem State.load_refused {s : State} {bs : List Byte} (hclosed : s.loadOpen = false) :
    s.load bs = .refused .lateLoad := if_pos hclosed

/-- Settles O14: each of the three answers of `load`, with what a copy leaves to be read. -/
theorem loadCopiesImage : Obligations.LoadCopiesImage := by
  unfold Obligations.LoadCopiesImage
  intro s bs
  exact ⟨fun hopen hlen => ⟨_, State.load_ok hopen hlen, Memory.read_copy bs s.mem 0x200⟩,
    State.load_programTooLarge, State.load_refused⟩

/-- Nothing but 0 stands above the glyph table after reset (R51, D16). -/
theorem Memory.blank_above_font {a : Nat} (h : 0x0A0 ≤ a) : Memory.blank a = 0#8 := by
  have hlen : Config.font.length ≤ a - Config.glyphBase := by
    show 80 ≤ a - 0x050
    omega
  rw [Memory.blank, List.getElem?_eq_none hlen]
  exact ite_self _

/-- After the load of an image into memory as reset leaves it, the program area reads as the image, followed by 0. -/
theorem Memory.read_copy_reset (bs : List Byte) (k : Nat) :
    (State.reset.mem.copy 0x200 bs).read (0x200 + k) = bs.getD k 0#8 := by
  rw [Memory.read_copy]
  by_cases hk : k < bs.length
  · rw [if_pos (by omega), Nat.add_sub_cancel_left]
  · rw [if_neg (by omega), List.getD_eq_default _ _ (by omega)]
    exact Memory.blank_above_font (by omega)

/-- Settles O15: the first step after the load fetches the image's first two bytes at 0x200. -/
theorem loadThenCycleRunsFirstWord : Obligations.LoadThenCycleRunsFirstWord := by
  unfold Obligations.LoadThenCycleRunsFirstWord
  intro bs w hlen hw
  have hpc : State.reset.pc.toNat < 0xFFF := by decide
  have hhi := Memory.read_copy_reset bs 0
  have hlo := Memory.read_copy_reset bs 1
  rw [← hhi, ← hlo] at hw
  exact ⟨_, State.load_ok rfl hlen, stepRunsDecodedInstruction _ w rfl hpc hw⟩

/-! ### The bytes a step reads and writes -/

/-- The execute step reads no byte but the listed ones: in a memory that agrees on them it leaves the same state, but
for memory (R58). -/
theorem State.effect_withMem (s : State) (m : Memory) (i : Instr)
    (h : ∀ k, k < i.readLen → m.read (s.i.toNat + k) = s.mem.read (s.i.toNat + k)) :
    ∃ m', State.effect { s with mem := m } i = { s.effect i with mem := m' } := by
  have hrange : (List.range i.readLen).map (fun k => m.read (s.i.toNat + k)) =
      (List.range i.readLen).map fun k => s.mem.read (s.i.toNat + k) :=
    List.map_congr_left fun k hk => h k (List.mem_range.mp hk)
  cases i with
  | drw x y n =>
    have hsprite : State.spriteBytes { s with mem := m } n = s.spriteBytes n := hrange
    have hdrawn : State.drawn { s with mem := m } x y n = s.drawn x y n := by rw [State.drawn, hsprite]; rfl
    refine ⟨m, ?_⟩
    rw [State.effect, hdrawn]
    rfl
  | ldVxMem x =>
    have hloaded : State.loadedBytes { s with mem := m } x = s.loadedBytes x := hrange
    refine ⟨m, ?_⟩
    rw [State.effect, hloaded]
    rfl
  | ldBVx x => exact ⟨m.copy s.i.toNat (bcdDigits (s.getV x)), rfl⟩
  | ldMemVx x => exact ⟨m.copy s.i.toNat (s.regsUpTo x), rfl⟩
  | _ => exact ⟨m, rfl⟩

/-- The execute step writes no byte but the listed ones (R58). -/
theorem State.keepsMemBut_effect (s : State) (i : Instr) : s.KeepsMemBut (s.effect i) s.indexAddr i.storeLen := by
  have hcopy : ∀ bs : List Byte, bs.length = i.storeLen → (s.effect i).mem = s.mem.copy s.indexAddr bs →
      s.KeepsMemBut (s.effect i) s.indexAddr i.storeLen := by
    intro bs hlen hmem b hb
    rw [hmem, Memory.read_copy, hlen, if_neg hb]
  cases i with
  | ldBVx x => exact hcopy (bcdDigits (s.getV x)) rfl rfl
  | ldMemVx x => exact hcopy (s.regsUpTo x) (s.regsUpTo_length x) rfl
  | _ => exact fun _ _ => rfl

/-- An instruction in a memory that agrees on the bytes it reads answers the same state, but for memory. -/
theorem exec_withMem {i : Instr} {s t : State} (m : Memory) (h : exec i s = .next t)
    (hread : ∀ k, k < i.readLen → m.read (s.i.toNat + k) = s.mem.read (s.i.toNat + k)) :
    ∃ m', exec i { s with mem := m } = .next { t with mem := m' } := by
  rcases exec_next_of_causeFits_iff (u := { s with mem := m }) h (State.causeFits_congr rfl rfl rfl i) with
    ⟨rfl, hu⟩ | ⟨c, rfl, hu⟩
  · obtain ⟨m', hm'⟩ := s.effect_withMem m i hread
    exact ⟨m', by rw [hu, hm']; rfl⟩
  · exact ⟨m, hu⟩

/-- The fetch reads no byte but the two at the pc (R91). -/
theorem State.fetch_withMem {s : State} {m : Memory} (hhi : m.read s.pc.toNat = s.mem.read s.pc.toNat)
    (hlo : m.read (s.pc.toNat + 1) = s.mem.read (s.pc.toNat + 1)) : State.fetch { s with mem := m } = s.fetch := by
  simp only [State.fetch, State.memRead, hhi, hlo]

/-- Settles O24: the fetch and the instruction each read the listed bytes alone, and only the instruction writes. -/
theorem memoryAccessesAreTheListedOnes : Obligations.MemoryAccessesAreTheListedOnes := by
  unfold Obligations.MemoryAccessesAreTheListedOnes
  intro s t m w hfault hfetch hstep
  rw [step_decoded hfault hfetch] at hstep
  refine ⟨fun hhi hlo hread => ?_, ?_⟩
  · obtain ⟨m', hm'⟩ := exec_withMem m hstep hread
    have hfetch' : State.fetch { s with mem := m } = .ok w := (State.fetch_withMem hhi hlo).trans hfetch
    exact ⟨m', (step_decoded (s := { s with mem := m }) hfault hfetch').trans hm'⟩
  · exact exec_next_of_effect_of_fault (P := fun t => s.KeepsMemBut t s.indexAddr (decode w).storeLen) hstep
      ((s.latch w).keepsMemBut_effect (decode w)) fun _ _ _ => rfl

/-! ### A store over the next instruction -/

/-- LD [I],Vx leaves V0..Vx to be read from I on (R154). -/
theorem State.read_copy_regsUpTo (s : State) {x r : Reg} (h : r ≤ x) :
    (s.mem.copy s.i.toNat (s.regsUpTo x)).read (s.i.toNat + r.toNat) = s.getV r := by
  have hr : r.toNat ≤ x.toNat := h
  rw [Memory.read_copy, s.regsUpTo_length, if_pos (by omega), Nat.add_sub_cancel_left, s.regsUpTo_getD h]

/-- Settles O53: the next step fetches at the advanced pc, where the store left V[a] and V[b]. -/
theorem storeIsSeenByNextFetch : Obligations.StoreIsSeenByNextFetch := by
  unfold Obligations.StoreIsSeenByNextFetch
  intro x a b s w hfault hin hab hbx hpc hw
  have hb : b.toNat ≤ x.toNat := hbx
  have hax : a ≤ x := show a.toNat ≤ x.toNat by omega
  refine ⟨_, exec_ldMemVx (by omega), stepRunsDecodedInstruction _ w hfault ?_ ?_⟩
  · show (s.pc + 2#16).toNat < 0xFFF
    omega
  · show w.toNat = 256 * ((s.mem.copy s.i.toNat (s.regsUpTo x)).read (s.pc + 2#16).toNat).toNat +
      ((s.mem.copy s.i.toNat (s.regsUpTo x)).read ((s.pc + 2#16).toNat + 1)).toNat
    rw [hpc, Nat.add_assoc, ← hab, s.read_copy_regsUpTo hax, s.read_copy_regsUpTo hbx, hw]

end Sys2Proof.Machine

/-! SUPPORT. The encoding family (spec/30_encoding.md): the opcode map R76 as a relation between words and instructions,
which is the graph of `decode`, so that a claim about every word is a case split over the rows. -/

namespace Sys2Proof

/-! ### The opcode map as a relation -/

/-- A row of R76: its word, with every ignored bit free, and its instruction. A no-op's selector is unclaimed (R97). -/
inductive OpcodeRow : Word → Instr → Prop where
  | cls (p q : Nibble) : OpcodeRow (wordXYN 0x0#4 p q 0x0#4) .cls
  | ret (p q : Nibble) : OpcodeRow (wordXYN 0x0#4 p q 0xE#4) .ret
  | sysNop (nnn : Addr) (h : (Instr.sysNop nnn).WellFormed) : OpcodeRow (wordNNN 0x0#4 nnn) (.sysNop nnn)
  | jp (nnn : Addr) : OpcodeRow (wordNNN 0x1#4 nnn) (.jp nnn)
  | call (nnn : Addr) : OpcodeRow (wordNNN 0x2#4 nnn) (.call nnn)
  | seImm (x : Reg) (kk : Byte) : OpcodeRow (wordXKK 0x3#4 x kk) (.seImm x kk)
  | sneImm (x : Reg) (kk : Byte) : OpcodeRow (wordXKK 0x4#4 x kk) (.sneImm x kk)
  | seReg (x y : Reg) (p : Nibble) : OpcodeRow (wordXYN 0x5#4 x y p) (.seReg x y)
  | ldImm (x : Reg) (kk : Byte) : OpcodeRow (wordXKK 0x6#4 x kk) (.ldImm x kk)
  | addImm (x : Reg) (kk : Byte) : OpcodeRow (wordXKK 0x7#4 x kk) (.addImm x kk)
  | ldReg (x y : Reg) : OpcodeRow (wordXYN 0x8#4 x y 0x0#4) (.ldReg x y)
  | orReg (x y : Reg) : OpcodeRow (wordXYN 0x8#4 x y 0x1#4) (.orReg x y)
  | andReg (x y : Reg) : OpcodeRow (wordXYN 0x8#4 x y 0x2#4) (.andReg x y)
  | xorReg (x y : Reg) : OpcodeRow (wordXYN 0x8#4 x y 0x3#4) (.xorReg x y)
  | addReg (x y : Reg) : OpcodeRow (wordXYN 0x8#4 x y 0x4#4) (.addReg x y)
  | sub (x y : Reg) : OpcodeRow (wordXYN 0x8#4 x y 0x5#4) (.sub x y)
  | shr (x : Reg) (p : Nibble) : OpcodeRow (wordXYN 0x8#4 x p 0x6#4) (.shr x)
  | subn (x y : Reg) : OpcodeRow (wordXYN 0x8#4 x y 0x7#4) (.subn x y)
  | shl (x : Reg) (p : Nibble) : OpcodeRow (wordXYN 0x8#4 x p 0xE#4) (.shl x)
  | nop8 (p q n : Nibble) (h : (Instr.nop8 n).WellFormed) : OpcodeRow (wordXYN 0x8#4 p q n) (.nop8 n)
  | sneReg (x y : Reg) (p : Nibble) : OpcodeRow (wordXYN 0x9#4 x y p) (.sneReg x y)
  | ldI (nnn : Addr) : OpcodeRow (wordNNN 0xA#4 nnn) (.ldI nnn)
  | jpV0 (nnn : Addr) : OpcodeRow (wordNNN 0xB#4 nnn) (.jpV0 nnn)
  | rnd (x : Reg) (kk : Byte) : OpcodeRow (wordXKK 0xC#4 x kk) (.rnd x kk)
  | drw (x y : Reg) (n : Nibble) : OpcodeRow (wordXYN 0xD#4 x y n) (.drw x y n)
  | skp (x : Reg) (p : Nibble) : OpcodeRow (wordXYN 0xE#4 x p 0xE#4) (.skp x)
  | sknp (x : Reg) (p : Nibble) : OpcodeRow (wordXYN 0xE#4 x p 0x1#4) (.sknp x)
  | nopE (p q n : Nibble) (h : (Instr.nopE n).WellFormed) : OpcodeRow (wordXYN 0xE#4 p q n) (.nopE n)
  | ldVxDt (x : Reg) : OpcodeRow (wordXKK 0xF#4 x 0x07#8) (.ldVxDt x)
  | ldVxK (x : Reg) : OpcodeRow (wordXKK 0xF#4 x 0x0A#8) (.ldVxK x)
  | ldDtVx (x : Reg) : OpcodeRow (wordXKK 0xF#4 x 0x15#8) (.ldDtVx x)
  | ldStVx (x : Reg) : OpcodeRow (wordXKK 0xF#4 x 0x18#8) (.ldStVx x)
  | addIVx (x : Reg) : OpcodeRow (wordXKK 0xF#4 x 0x1E#8) (.addIVx x)
  | ldFVx (x : Reg) : OpcodeRow (wordXKK 0xF#4 x 0x29#8) (.ldFVx x)
  | ldBVx (x : Reg) : OpcodeRow (wordXKK 0xF#4 x 0x33#8) (.ldBVx x)
  | ldMemVx (x : Reg) : OpcodeRow (wordXKK 0xF#4 x 0x55#8) (.ldMemVx x)
  | ldVxMem (x : Reg) : OpcodeRow (wordXKK 0xF#4 x 0x65#8) (.ldVxMem x)
  | nopF (p : Nibble) (kk : Byte) (h : (Instr.nopF kk).WellFormed) : OpcodeRow (wordXKK 0xF#4 p kk) (.nopF kk)

/-! ### Selectors of the no-ops (R97) -/

theorem wellFormed_sysNop (nnn : Addr) : (Instr.sysNop nnn).WellFormed ↔ nnn.extractLsb' 0 4 ∉ claimed0 := by
  simp [Instr.WellFormed, Instr.wellFormed]

theorem wellFormed_nop8 (n : Nibble) : (Instr.nop8 n).WellFormed ↔ n ∉ claimed8 := by
  simp [Instr.WellFormed, Instr.wellFormed]

theorem wellFormed_nopE (n : Nibble) : (Instr.nopE n).WellFormed ↔ n ∉ claimedE := by
  simp [Instr.WellFormed, Instr.wellFormed]

theorem wellFormed_nopF (kk : Byte) : (Instr.nopF kk).WellFormed ↔ kk ∉ claimedF := by
  simp [Instr.WellFormed, Instr.wellFormed]

theorem OpcodeRow.wellFormed {w : Word} {i : Instr} (h : OpcodeRow w i) : i.WellFormed := by
  cases h with
  | sysNop _ h | nop8 _ _ _ h | nopE _ _ _ h | nopF _ _ h => exact h
  | _ => rfl

/-! ### The relation is the graph of `decode` -/

theorem decode0_of_unclaimed {w : Word} (h : opN w ∉ claimed0) : decode0 w = .sysNop (opNNN w) := by
  unfold decode0
  split <;> simp_all [claimed0]

theorem decode8_of_unclaimed {w : Word} (h : opN w ∉ claimed8) : decode8 w = .nop8 (opN w) := by
  unfold decode8
  split <;> simp_all [claimed8]

theorem decodeE_of_unclaimed {w : Word} (h : opN w ∉ claimedE) : decodeE w = .nopE (opN w) := by
  unfold decodeE
  split <;> simp_all [claimedE]

theorem decodeF_of_unclaimed {w : Word} (h : opKK w ∉ claimedF) : decodeF w = .nopF (opKK w) := by
  unfold decodeF
  split <;> simp_all [claimedF]

/-- A row's word decodes to its instruction, whatever its ignored bits hold. -/
theorem OpcodeRow.decode_eq {w : Word} {i : Instr} (h : OpcodeRow w i) : decode w = i := by
  cases h with
  | sysNop nnn h =>
    rw [wellFormed_sysNop] at h
    simp [decode, decode0_of_unclaimed, h]
  | nop8 p q n h =>
    rw [wellFormed_nop8] at h
    simp [decode, decode8_of_unclaimed, h]
  | nopE p q n h =>
    rw [wellFormed_nopE] at h
    simp [decode, decodeE_of_unclaimed, h]
  | nopF p kk h =>
    rw [wellFormed_nopF] at h
    simp [decode, decodeF_of_unclaimed, h]
  | _ => simp [decode, decode0, decode8, decodeE, decodeF]

/-! A word with a known group, and low nibble or low byte where they select, has the row of its fields. -/

theorem OpcodeRow.of_nnn {w : Word} {g : Nibble} {i : Instr} (hg : opG w = g)
    (h : OpcodeRow (wordNNN g (opNNN w)) i) : OpcodeRow w i := by
  rwa [← hg, ← word_eq_wordNNN] at h

theorem OpcodeRow.of_xkk {w : Word} {g : Nibble} {kk : Byte} {i : Instr} (hg : opG w = g) (hk : opKK w = kk)
    (h : OpcodeRow (wordXKK g (opX w) kk) i) : OpcodeRow w i := by
  rwa [← hg, ← hk, ← word_eq_wordXKK] at h

theorem OpcodeRow.of_xyn {w : Word} {g n : Nibble} {i : Instr} (hg : opG w = g) (hn : opN w = n)
    (h : OpcodeRow (wordXYN g (opX w) (opY w) n) i) : OpcodeRow w i := by
  rwa [← hg, ← hn, ← word_eq_wordXYN] at h

theorem opNNN_extractLsb'_nibble (w : Word) : (opNNN w).extractLsb' 0 4 = opN w := by
  rw [← opN_wordNNN (opG w), ← word_eq_wordNNN]

theorem opcodeRow_decode0 {w : Word} (hg : opG w = 0x0#4) : OpcodeRow w (decode0 w) := by
  unfold decode0
  split
  next hn => exact .of_xyn hg hn (.cls _ _)
  next hn => exact .of_xyn hg hn (.ret _ _)
  next => exact .of_nnn hg (.sysNop _ (by simp_all [wellFormed_sysNop, opNNN_extractLsb'_nibble, claimed0]))

theorem opcodeRow_decode8 {w : Word} (hg : opG w = 0x8#4) : OpcodeRow w (decode8 w) := by
  unfold decode8
  split
  next hn => exact .of_xyn hg hn (.ldReg _ _)
  next hn => exact .of_xyn hg hn (.orReg _ _)
  next hn => exact .of_xyn hg hn (.andReg _ _)
  next hn => exact .of_xyn hg hn (.xorReg _ _)
  next hn => exact .of_xyn hg hn (.addReg _ _)
  next hn => exact .of_xyn hg hn (.sub _ _)
  next hn => exact .of_xyn hg hn (.shr _ _)
  next hn => exact .of_xyn hg hn (.subn _ _)
  next hn => exact .of_xyn hg hn (.shl _ _)
  next => exact .of_xyn hg rfl (.nop8 _ _ _ (by simp_all [wellFormed_nop8, claimed8]))

theorem opcodeRow_decodeE {w : Word} (hg : opG w = 0xE#4) : OpcodeRow w (decodeE w) := by
  unfold decodeE
  split
  next hn => exact .of_xyn hg hn (.skp _ _)
  next hn => exact .of_xyn hg hn (.sknp _ _)
  next => exact .of_xyn hg rfl (.nopE _ _ _ (by simp_all [wellFormed_nopE, claimedE]))

theorem opcodeRow_decodeF {w : Word} (hg : opG w = 0xF#4) : OpcodeRow w (decodeF w) := by
  unfold decodeF
  split
  next hk => exact .of_xkk hg hk (.ldVxDt _)
  next hk => exact .of_xkk hg hk (.ldVxK _)
  next hk => exact .of_xkk hg hk (.ldDtVx _)
  next hk => exact .of_xkk hg hk (.ldStVx _)
  next hk => exact .of_xkk hg hk (.addIVx _)
  next hk => exact .of_xkk hg hk (.ldFVx _)
  next hk => exact .of_xkk hg hk (.ldBVx _)
  next hk => exact .of_xkk hg hk (.ldMemVx _)
  next hk => exact .of_xkk hg hk (.ldVxMem _)
  next => exact .of_xkk hg rfl (.nopF _ _ (by simp_all [wellFormed_nopF, claimedF]))

/-- Every word is in a row, and `decode` reads that row (R77, R93). -/
theorem opcodeRow_decode (w : Word) : OpcodeRow w (decode w) := by
  unfold decode
  split
  next hg => exact opcodeRow_decode0 hg
  next hg => exact .of_nnn hg (.jp _)
  next hg => exact .of_nnn hg (.call _)
  next hg => exact .of_xkk hg rfl (.seImm _ _)
  next hg => exact .of_xkk hg rfl (.sneImm _ _)
  next hg => exact .of_xyn hg rfl (.seReg _ _ _)
  next hg => exact .of_xkk hg rfl (.ldImm _ _)
  next hg => exact .of_xkk hg rfl (.addImm _ _)
  next hg => exact opcodeRow_decode8 hg
  next hg => exact .of_xyn hg rfl (.sneReg _ _ _)
  next hg => exact .of_nnn hg (.ldI _)
  next hg => exact .of_nnn hg (.jpV0 _)
  next hg => exact .of_xkk hg rfl (.rnd _ _)
  next hg => exact .of_xyn hg rfl (.drw _ _ _)
  next hg => exact opcodeRow_decodeE hg
  next =>
    have hg : opG w = 0xF#4 := by
      generalize opG w = g at *
      decide +revert
    exact opcodeRow_decodeF hg

theorem opcodeRow_iff (w : Word) (i : Instr) : OpcodeRow w i ↔ decode w = i :=
  ⟨OpcodeRow.decode_eq, fun h => h ▸ opcodeRow_decode w⟩

/-! ### Encoding a row -/

theorem wordXKK_append (g x a b : Nibble) : wordXKK g x (a ++ b) = wordXYN g x a b := by
  apply BitVec.eq_of_toNat_eq
  rw [wordXKK_toNat, wordXYN_toNat, append_toNat]
  omega

theorem encode_skp (x : Reg) : encode (.skp x) = wordXYN 0xE#4 x 0x9#4 0xE#4 := wordXKK_append 0xE#4 x 0x9#4 0xE#4

theorem encode_sknp (x : Reg) : encode (.sknp x) = wordXYN 0xE#4 x 0xA#4 0x1#4 := wordXKK_append 0xE#4 x 0xA#4 0x1#4

/-- The encoder writes a word of the instruction's own row (R72, R76). -/
theorem opcodeRow_encode : ∀ {i : Instr}, i.WellFormed → OpcodeRow (encode i) i
  | .cls, _ => .cls 0x0#4 0xE#4
  | .ret, _ => .ret 0x0#4 0xE#4
  | .sysNop nnn, h => .sysNop nnn h
  | .jp nnn, _ => .jp nnn
  | .call nnn, _ => .call nnn
  | .seImm x kk, _ => .seImm x kk
  | .sneImm x kk, _ => .sneImm x kk
  | .seReg x y, _ => .seReg x y 0x0#4
  | .ldImm x kk, _ => .ldImm x kk
  | .addImm x kk, _ => .addImm x kk
  | .ldReg x y, _ => .ldReg x y
  | .orReg x y, _ => .orReg x y
  | .andReg x y, _ => .andReg x y
  | .xorReg x y, _ => .xorReg x y
  | .addReg x y, _ => .addReg x y
  | .sub x y, _ => .sub x y
  | .shr x, _ => .shr x 0x0#4
  | .subn x y, _ => .subn x y
  | .shl x, _ => .shl x 0x0#4
  | .nop8 n, h => .nop8 0x0#4 0x0#4 n h
  | .sneReg x y, _ => .sneReg x y 0x0#4
  | .ldI nnn, _ => .ldI nnn
  | .jpV0 nnn, _ => .jpV0 nnn
  | .rnd x kk, _ => .rnd x kk
  | .drw x y n, _ => .drw x y n
  | .skp x, _ => encode_skp x ▸ .skp x 0x9#4
  | .sknp x, _ => encode_sknp x ▸ .sknp x 0xA#4
  | .nopE n, h => .nopE 0x0#4 0x0#4 n h
  | .ldVxDt x, _ => .ldVxDt x
  | .ldVxK x, _ => .ldVxK x
  | .ldDtVx x, _ => .ldDtVx x
  | .ldStVx x, _ => .ldStVx x
  | .addIVx x, _ => .addIVx x
  | .ldFVx x, _ => .ldFVx x
  | .ldBVx x, _ => .ldBVx x
  | .ldMemVx x, _ => .ldMemVx x
  | .ldVxMem x, _ => .ldVxMem x
  | .nopF kk, h => .nopF 0x0#4 kk h

/-- Settles O4: the encoded word lies in the instruction's row, and a row's word decodes to its instruction. -/
theorem decodeOfEncode : Obligations.DecodeOfEncode := by
  unfold Obligations.DecodeOfEncode
  exact fun i h => (opcodeRow_iff _ _).mp (opcodeRow_encode h)

/-! ### Ignored bits (R76) -/

theorem nibble_and_F (a : Nibble) : a &&& 0xF#4 = a := BitVec.and_allOnes

theorem byte_and_FF (b : Byte) : b &&& 0xFF#8 = b := BitVec.and_allOnes

theorem wordXYN_and_F00F (g x y n : Nibble) : wordXYN g x y n &&& 0xF00F#16 = wordXYN g 0x0#4 0x0#4 n :=
  (wordXYN_and g x y n 0xF#4 0x0#4 0x0#4 0xF#4).trans (by simp [nibble_and_F])

theorem wordXYN_and_FF0F (g x y n : Nibble) : wordXYN g x y n &&& 0xFF0F#16 = wordXYN g x 0x0#4 n :=
  (wordXYN_and g x y n 0xF#4 0xF#4 0x0#4 0xF#4).trans (by simp [nibble_and_F])

theorem wordXYN_and_FFF0 (g x y n : Nibble) : wordXYN g x y n &&& 0xFFF0#16 = wordXYN g x y 0x0#4 :=
  (wordXYN_and g x y n 0xF#4 0xF#4 0xF#4 0x0#4).trans (by simp [nibble_and_F])

theorem wordXKK_and_F0FF (g x : Nibble) (kk : Byte) : wordXKK g x kk &&& 0xF0FF#16 = wordXKK g 0x0#4 kk :=
  (wordXKK_and g x 0xF#4 0x0#4 kk 0xFF#8).trans (by simp [nibble_and_F, byte_and_FF])

/-- The words of one row agree in every bit that the row does not ignore. -/
theorem OpcodeRow.encode_and_usedBits {w : Word} {i : Instr} (h : OpcodeRow w i) :
    encode i &&& i.usedBits = w &&& i.usedBits := by
  cases h with
  | cls p q => exact (wordXYN_and_F00F 0x0#4 p q 0x0#4).symm
  | ret p q => exact (wordXYN_and_F00F 0x0#4 p q 0xE#4).symm
  | nop8 | nopE => simp only [encode, Instr.usedBits, wordXYN_and_F00F]
  | nopF => simp only [encode, Instr.usedBits, wordXKK_and_F0FF]
  | seReg | sneReg => simp only [encode, Instr.usedBits, wordXYN_and_FFF0]
  | shr | shl => simp only [encode, Instr.usedBits, wordXYN_and_FF0F]
  | skp x p => simp only [encode_skp, Instr.usedBits, wordXYN_and_FF0F]
  | sknp x p => simp only [encode_sknp, Instr.usedBits, wordXYN_and_FF0F]
  | _ => rfl

/-- Settles O5: a word and the encoding of its instruction lie in one row. -/
theorem encodeOfDecodeKeepsUsedBits : Obligations.EncodeOfDecodeKeepsUsedBits := by
  unfold Obligations.EncodeOfDecodeKeepsUsedBits
  exact fun w => ⟨(opcodeRow_decode w).wellFormed, (opcodeRow_decode w).encode_and_usedBits⟩

/-! ### Rows built as numbers -/

theorem OpcodeRow.decode_ofNat {w : Word} {i : Instr} (h : OpcodeRow w i) {k : Nat} (hk : k = w.toNat) :
    decode (BitVec.ofNat 16 k) = i := by
  rw [hk, BitVec.ofNat_toNat, BitVec.setWidth_eq, h.decode_eq]

/-- Settles O2: each number is the word of its row. -/
theorem opcodeMapOfEveryRow : Obligations.OpcodeMapOfEveryRow := by
  unfold Obligations.OpcodeMapOfEveryRow
  intro x y n p q kk nnn X Y P
  refine ⟨(OpcodeRow.cls p q).decode_ofNat ?_, (OpcodeRow.ret p q).decode_ofNat ?_,
    (OpcodeRow.jp nnn).decode_ofNat ?_, (OpcodeRow.call nnn).decode_ofNat ?_,
    (OpcodeRow.seImm x kk).decode_ofNat ?_, (OpcodeRow.sneImm x kk).decode_ofNat ?_,
    (OpcodeRow.seReg x y p).decode_ofNat ?_, (OpcodeRow.ldImm x kk).decode_ofNat ?_,
    (OpcodeRow.addImm x kk).decode_ofNat ?_, (OpcodeRow.ldReg x y).decode_ofNat ?_,
    (OpcodeRow.orReg x y).decode_ofNat ?_, (OpcodeRow.andReg x y).decode_ofNat ?_,
    (OpcodeRow.xorReg x y).decode_ofNat ?_, (OpcodeRow.addReg x y).decode_ofNat ?_,
    (OpcodeRow.sub x y).decode_ofNat ?_, (OpcodeRow.shr x y).decode_ofNat ?_,
    (OpcodeRow.subn x y).decode_ofNat ?_, (OpcodeRow.shl x y).decode_ofNat ?_,
    (OpcodeRow.sneReg x y p).decode_ofNat ?_, (OpcodeRow.ldI nnn).decode_ofNat ?_,
    (OpcodeRow.jpV0 nnn).decode_ofNat ?_, (OpcodeRow.rnd x kk).decode_ofNat ?_,
    (OpcodeRow.drw x y n).decode_ofNat ?_, (OpcodeRow.skp x y).decode_ofNat ?_,
    (OpcodeRow.sknp x y).decode_ofNat ?_, (OpcodeRow.ldVxDt x).decode_ofNat ?_,
    (OpcodeRow.ldVxK x).decode_ofNat ?_, (OpcodeRow.ldDtVx x).decode_ofNat ?_,
    (OpcodeRow.ldStVx x).decode_ofNat ?_, (OpcodeRow.addIVx x).decode_ofNat ?_,
    (OpcodeRow.ldFVx x).decode_ofNat ?_, (OpcodeRow.ldBVx x).decode_ofNat ?_,
    (OpcodeRow.ldMemVx x).decode_ofNat ?_, (OpcodeRow.ldVxMem x).decode_ofNat ?_⟩
  all_goals simp only [wordNNN_toNat, wordXKK_toNat, wordXYN_toNat, BitVec.reduceToNat, X, Y, P] <;> omega

/-! ### Unclaimed words (R97) -/

/-- R97's list by numbers is the list of claimed selectors by fields. -/
theorem unclaimedWord_iff (w : Word) : unclaimedWord w ↔
    (opG w = 0x0#4 ∧ opN w ∉ claimed0) ∨ (opG w = 0x8#4 ∧ opN w ∉ claimed8) ∨
    (opG w = 0xE#4 ∧ opN w ∉ claimedE) ∨ (opG w = 0xF#4 ∧ opKK w ∉ claimedF) := by
  have := w.isLt
  simp only [unclaimedWord, claimed0, claimed8, claimedE, claimedF, List.mem_cons, List.not_mem_nil, or_false,
    ← BitVec.toNat_inj, opG_toNat, opN_toNat, opKK_toNat, BitVec.reduceToNat]
  omega

/-- A row's word is unclaimed exactly when its instruction is a no-op. -/
theorem OpcodeRow.unclaimedWord_iff_isNoOp {w : Word} {i : Instr} (h : OpcodeRow w i) :
    unclaimedWord w ↔ i.IsNoOp := by
  rw [unclaimedWord_iff]
  cases h with
  | sysNop _ h => simpa [Instr.IsNoOp] using (wellFormed_sysNop _).mp h
  | nop8 _ _ _ h => simpa [Instr.IsNoOp] using (wellFormed_nop8 _).mp h
  | nopE _ _ _ h => simpa [Instr.IsNoOp] using (wellFormed_nopE _).mp h
  | nopF _ _ h => simpa [Instr.IsNoOp] using (wellFormed_nopF _).mp h
  | _ => simp [Instr.IsNoOp, claimed0, claimed8, claimedE, claimedF]

theorem unclaimedWord_group {w : Word} (h : unclaimedWord w) : w.toNat / 4096 ∈ [0x0, 0x8, 0xE, 0xF] := by
  rcases h with ⟨hg, _⟩ | ⟨hg, _⟩ | ⟨hg, _⟩ | ⟨hg, _⟩ <;> simp [hg]

/-- The cycle of a no-op is the advance and the tick (R97). -/
theorem exec_of_isNoOp {i : Instr} (h : i.IsNoOp) (s : Machine.State) :
    Machine.exec i s = .next s.beginCycle.endCycle := by
  rcases h with ⟨nnn, rfl⟩ | ⟨n, rfl⟩ | ⟨n, rfl⟩ | ⟨kk, rfl⟩
  · exact Machine.exec_sysNop s nnn
  · exact Machine.exec_nop8 s n
  · exact Machine.exec_nopE s n
  · exact Machine.exec_nopF s kk

/-- Settles O3: the word's row says whether it is unclaimed, and a no-op's cycle is the advance and the tick. -/
theorem unclaimedWordsAreNoOps : Obligations.UnclaimedWordsAreNoOps := by
  unfold Obligations.UnclaimedWordsAreNoOps
  intro w
  have hiff : unclaimedWord w ↔ (decode w).IsNoOp := (opcodeRow_decode w).unclaimedWord_iff_isNoOp
  exact ⟨hiff, fun hgroup hnoop => hgroup (unclaimedWord_group (hiff.mpr hnoop)), fun hw s =>
    ⟨_, exec_of_isNoOp (hiff.mp hw) s, Machine.State.onlyVAndPc_endCycle rfl, fun _ _ => rfl, rfl⟩⟩

/-! ### The source's words (R80) -/

/-- Settles O1: five closed words, each decoded alone and from its bytes. -/
theorem sourceWordsDecode : Obligations.SourceWordsDecode := by
  unfold Obligations.SourceWordsDecode
  decide

end Sys2Proof

/-! SUPPORT. The cycle family (spec/40_cycle.md): the two ends of a cycle, the tick, the advance of the pc, and the steps
that execute nothing. -/

namespace Sys2Proof.Machine

/-! ### The ends of a cycle (R90, R96) -/

/-- The execute step leaves what completing a cycle asks for. -/
theorem State.completed_endCycle_effect (s : State) (i : Instr) : s.Completed (s.effect i).endCycle :=
  State.completed_endCycle (s.effect_fault i) (s.effect_keys i) (s.effect_pending i) (s.effect_draws i)

/-- Settles O9: a cycle is the completed effect of its instruction, or its one fault taken. -/
theorem cyclesCompleteOrFaultPrecisely : Obligations.CyclesCompleteOrFaultPrecisely := by
  unfold Obligations.CyclesCompleteOrFaultPrecisely
  intro i s
  rcases exec_cases i s with ⟨-, hexec⟩ | ⟨c, -, hexec⟩
  · exact ⟨_, hexec, .inl (s.completed_endCycle_effect i)⟩
  · exact ⟨_, hexec, .inr ⟨c, s.faultTaken_takeFault c⟩⟩

/-! ### The tick (R95) -/

/-- Settles O19: the tick is that of the effect, where only the two loads write a timer. -/
theorem timersTickEveryCycle : Obligations.TimersTickEveryCycle := by
  unfold Obligations.TimersTickEveryCycle
  intro i s t _ hexec hfault
  obtain rfl := exec_next_of_no_fault hexec hfault
  rw [State.endCycle_dt, State.endCycle_st, tickTimer_toNat, tickTimer_toNat]
  have hdt : (∀ x, i ≠ .ldDtVx x) → (s.effect i).dt.toNat - 1 = s.dt.toNat - 1 := fun h => by rw [State.effect_dt h]
  have hst : (∀ x, i ≠ .ldStVx x) → (s.effect i).st.toNat - 1 = s.st.toNat - 1 := fun h => by rw [State.effect_st h]
  cases i with
  | ldDtVx x => exact ⟨rfl, hst nofun⟩
  | ldStVx x => exact ⟨hdt nofun, rfl⟩
  | _ => exact ⟨hdt nofun, hst nofun⟩

/-! ### The pc (R92) -/

/-- A skip from the advanced pc, with its condition as a proposition (R118). -/
theorem State.skipIf_beginCycle_pc (s : State) {c : Bool} {p : Prop} [Decidable p] (h : c = true ↔ p) :
    (s.beginCycle.skipIf c).pc = if p then s.pc + 4#16 else s.pc + 2#16 := by
  simp only [State.skipIf_pc, State.beginCycle_pc, h, BitVec.add_assoc]
  rfl

/-- The same for a skip on the opposite condition. -/
theorem State.skipIf_beginCycle_pc_not (s : State) {c : Bool} {p : Prop} [Decidable p] (h : c = true ↔ ¬ p) :
    (s.beginCycle.skipIf c).pc = if p then s.pc + 2#16 else s.pc + 4#16 :=
  (s.skipIf_beginCycle_pc h).trans (ite_not ..)

/-- The scan of the keypad finds a key exactly when one is pressed (R173). -/
theorem State.keys_contains_true (s : State) : s.keys.toList.contains true = s.pressedKey.isSome := by
  rw [State.pressedKey_eq_find, List.isSome_find?, Bool.eq_iff_iff]
  simp [Vector.mem_iff_getElem, Fin.exists_iff]

/-- The target of JP V0 as a sum of numbers (R117). -/
theorem setWidth_add_setWidth (nnn : Addr) (b : Byte) :
    nnn.setWidth 16 + b.setWidth 16 = BitVec.ofNat 16 (nnn.toNat + b.toNat) := by
  apply BitVec.eq_of_toNat_eq
  simp

/-- A CALL that takes no fault has room on the stack (R112). -/
theorem sp_lt_of_exec_call {nnn : Addr} {s t : State} (h : exec (.call nnn) s = .next t) (ht : t.fault = none) :
    s.sp.val < 16 := by
  by_contra hfull
  obtain rfl := Host.Outcome.next.inj ((exec_call_fault nnn hfull).symm.trans h)
  cases ht

/-- Settles O20: the effect of every instruction starts from the advanced pc, and CALL pushes it at SP. -/
theorem pcAfterEveryInstruction : Obligations.PcAfterEveryInstruction := by
  unfold Obligations.PcAfterEveryInstruction
  intro i s t _ hexec hfault
  constructor
  · obtain rfl := exec_next_of_no_fault hexec hfault
    rw [State.endCycle_pc]
    cases i with
    | jpV0 nnn => exact setWidth_add_setWidth nnn _
    | seImm | seReg => exact s.skipIf_beginCycle_pc beq_iff_eq
    | sneImm | sneReg => exact s.skipIf_beginCycle_pc_not bne_iff_ne
    | skp => exact s.skipIf_beginCycle_pc Iff.rfl
    | sknp => exact s.skipIf_beginCycle_pc_not (by simp)
    | ldVxK x =>
      simp only [State.effect, State.jump_pc, ← State.beginCycle_keys, State.keys_contains_true]
      cases s.beginCycle.pressedKey <;> rfl
    | _ => rfl
  · rintro nnn rfl
    have hsp := sp_lt_of_exec_call hexec hfault
    obtain rfl := Host.Outcome.next.inj ((exec_call nnn hsp).symm.trans hexec)
    simp [hsp]

/-! ### Steps that execute nothing (R91, R98) -/

/-- Settles O7: the fetch reports the first address above memory, and the step takes that fault with no opcode. -/
theorem fetchAboveMemoryFaults : Obligations.FetchAboveMemoryFaults := by
  unfold Obligations.FetchAboveMemoryFaults
  intro s hfault hpc
  exact ⟨_, step_fetch_error hfault (s.fetch_error hpc), s.faultTaken_takeFetchFault _⟩

/-- Settles O8: the step looks at the recorded fault first. -/
theorem faultedCoreHalts : Obligations.FaultedCoreHalts := by
  unfold Obligations.FaultedCoreHalts
  intro s r hfault
  exact step_faulted hfault

/-! ### No-ops (R97) -/

/-- Settles O28: each listed instruction is a no-op, whose cycle is the advance and the tick. -/
theorem noOpsOnlyAdvanceAndTick : Obligations.NoOpsOnlyAdvanceAndTick := by
  unfold Obligations.NoOpsOnlyAdvanceAndTick
  intro nnn n kk s i hi
  have hnoop : i.IsNoOp := by
    simp only [List.mem_cons, List.not_mem_nil, or_false] at hi
    exact hi.imp (⟨nnn, ·⟩) (Or.imp (⟨n, ·⟩) (Or.imp (⟨n, ·⟩) (⟨kk, ·⟩)))
  exact ⟨_, exec_of_isNoOp hnoop s, State.onlyVAndPc_endCycle rfl, fun _ _ => rfl, rfl⟩

end Sys2Proof.Machine

/-! SUPPORT. The display family (spec/41_display.md): a drawn sprite pixel by pixel, its collision, and CLS and DRW. -/

namespace Sys2Proof.Machine

/-! ### The sprite as a predicate on pixels (R101, R104) -/

/-- Outside the grid there is no pixel that is on (R29). -/
theorem Framebuffer.get_outside (f : Framebuffer) {px py : Nat} (h : ¬ (px < 64 ∧ py < 32)) : f.get px py = false :=
  dif_neg h

/-- Inside the height of a sprite its byte of a row is the byte of memory at that distance from I. -/
theorem State.spriteBytes_getD (s : State) {n : Nibble} {k : Nat} (h : k < n.toNat) :
    (s.spriteBytes n).getD k 0#8 = s.mem.read (s.i.toNat + k) := by
  simp [State.spriteBytes, h]

/-- The positions DRW plots are the pixels of `spriteBit`. -/
theorem State.mem_spritePositions_iff_spriteBit (s : State) (x y : Reg) (n : Nibble) (px py : Nat) :
    (px, py) ∈ spritePositions (originX (s.getV x)) (originY (s.getV y)) (s.spriteBytes n) ↔
      s.spriteBit x y n px py = true := by
  have hlen : (s.spriteBytes n).length = n.toNat := by simp [State.spriteBytes]
  rw [mem_spritePositions, hlen, State.spriteBit, Bool.and_eq_true, decide_eq_true_iff]
  refine and_congr_right fun ⟨_, _, htop, hbottom⟩ => ?_
  rw [s.spriteBytes_getD (by omega)]
  rfl

/-- The sprite depends on its origin, on I and on the bytes read from I on, and on nothing else of the state. -/
theorem State.spriteBit_congr {s u : State} {x y : Reg} {n : Nibble} (hi : u.i = s.i) (hx : u.getV x = s.getV x)
    (hy : u.getV y = s.getV y) (hmem : ∀ k, k < n.toNat → u.mem.read (s.i.toNat + k) = s.mem.read (s.i.toNat + k))
    (px py : Nat) : u.spriteBit x y n px py = s.spriteBit x y n px py := by
  have hbytes : u.spriteBytes n = s.spriteBytes n := by
    rw [State.spriteBytes, hi]
    exact List.map_congr_left fun k hk => hmem k (List.mem_range.mp hk)
  rw [Bool.eq_iff_iff, ← State.mem_spritePositions_iff_spriteBit, ← State.mem_spritePositions_iff_spriteBit, hx, hy,
    hbytes]

/-! ### What DRW draws (R101, R103) -/

/-- DRW flips the pixels of its sprite (R101). -/
theorem State.get_drawn (s : State) (x y : Reg) (n : Nibble) {px py : Nat} (hpx : px < 64) (hpy : py < 32) :
    (s.drawn x y n).fb.get px py = (s.fb.get px py ^^ s.spriteBit x y n px py) := by
  rw [State.drawn, Canvas.get_plotRows _ _ _ _ hpx hpy]
  simp only [s.mem_spritePositions_iff_spriteBit, Bool.decide_eq_true]

/-- DRW collides exactly where its sprite meets a pixel of the grid that was on (R103). -/
theorem State.hit_drawn (s : State) (x y : Reg) (n : Nibble) : (s.drawn x y n).hit = true ↔
    ∃ px py, px < 64 ∧ py < 32 ∧ s.spriteBit x y n px py = true ∧ s.fb.get px py = true := by
  rw [State.drawn, Canvas.hit_plotRows]
  simp only [Bool.false_eq_true, false_or, Prod.exists, s.mem_spritePositions_iff_spriteBit]
  exact exists_congr fun px => exists_congr fun py => by tauto

/-- A sprite that meets a pixel that was on gives the flag 1. -/
theorem State.collisionFlag_drawn_eq_one {s : State} {x y : Reg} {n : Nibble} {px py : Nat} (hpx : px < 64)
    (hpy : py < 32) (hbit : s.spriteBit x y n px py = true) (hon : s.fb.get px py = true) :
    collisionFlag (s.drawn x y n) = 1#8 := by
  rw [collisionFlag, (s.hit_drawn x y n).2 ⟨px, py, hpx, hpy, hbit, hon⟩]
  rfl

/-- A sprite that meets only pixels that were off gives the flag 0. -/
theorem State.collisionFlag_drawn_eq_zero {s : State} {x y : Reg} {n : Nibble}
    (hoff : ∀ px py, px < 64 → py < 32 → s.spriteBit x y n px py = true → s.fb.get px py = false) :
    collisionFlag (s.drawn x y n) = 0#8 := by
  have hmiss : (s.drawn x y n).hit = false := by
    rw [Bool.eq_false_iff, Ne, s.hit_drawn]
    rintro ⟨px, py, hpx, hpy, hbit, hon⟩
    rw [hoff px py hpx hpy hbit] at hon
    cases hon
  rw [collisionFlag, hmiss]
  rfl

/-- The flag is the last thing DRW writes, so VF holds it at the end of the cycle. -/
theorem State.getV_regF_effect_drw (s : State) (x y : Reg) (n : Nibble) :
    (s.effect (.drw x y n)).endCycle.getV regF = collisionFlag (s.drawn x y n) :=
  (State.getV_setV ..).trans (if_pos rfl)

/-! ### DRW (R101 to R103) -/

/-- Settles O30: the drawn canvas pixel by pixel, with the frame of DRW's effect. -/
theorem drwXorsSpriteOntoGrid : Obligations.DrwXorsSpriteOntoGrid := by
  unfold Obligations.DrwXorsSpriteOntoGrid
  intro x y n s hin
  have hkept : s.KeepsVBut (s.effect (.drw x y n)).endCycle [regF] := fun r hr =>
    s.getV_effect (i := .drw x y n) fun h => hr (List.mem_singleton.mpr h)
  exact ⟨_, exec_drw x y hin, s.completed_endCycle_effect (.drw x y n), State.ticked_endCycle rfl rfl, hkept, rfl,
    ⟨rfl, fun _ => rfl⟩, fun _ => rfl, rfl, fun _ _ => s.get_drawn x y n⟩

/-- Settles O31: a pixel goes from on to off exactly where a sprite bit meets a pixel that was on. -/
theorem drwCollisionFlag : Obligations.DrwCollisionFlag := by
  unfold Obligations.DrwCollisionFlag
  intro x y n s hin
  refine ⟨_, exec_drw x y hin, ?_, fun hkept => ?_⟩
  · rintro ⟨px, py, hpx, hpy, hon, hoff⟩
    have hbit : s.spriteBit x y n px py = true := by
      have hxor := (s.get_drawn x y n hpx hpy).symm.trans hoff
      simpa [hon] using hxor
    exact (s.getV_regF_effect_drw x y n).trans (State.collisionFlag_drawn_eq_one hpx hpy hbit hon)
  · refine (s.getV_regF_effect_drw x y n).trans (State.collisionFlag_drawn_eq_zero fun px py hpx hpy hbit => ?_)
    by_contra hoff
    have hon : s.fb.get px py = true := Bool.eq_true_of_not_eq_false hoff
    have hxor := (s.get_drawn x y n hpx hpy).symm.trans (hkept px py hpx hpy hon)
    simp [hon, hbit] at hxor

/-- Settles O33: the second draw XORs the same sprite again, and the pixel that a drawn bit meets is the opposite of what
it was before the first draw. -/
theorem doubleDrawRestoresFramebuffer : Obligations.DoubleDrawRestoresFramebuffer := by
  unfold Obligations.DoubleDrawRestoresFramebuffer
  intro x y n s t u hin hfirst hfb hi hx hy hmem
  obtain rfl := Host.Outcome.next.inj ((exec_drw x y hin).symm.trans hfirst)
  have hsame := State.spriteBit_congr hi hx hy hmem
  have hdrawn : ∀ px py, px < 64 → py < 32 → u.fb.get px py = (s.fb.get px py ^^ s.spriteBit x y n px py) := by
    intro px py hpx hpy
    rw [hfb]
    exact s.get_drawn x y n hpx hpy
  refine ⟨_, exec_drw x y (hi ▸ hin), fun px py => ?_, ?_, fun hnone => ?_⟩
  · show (u.drawn x y n).fb.get px py = s.fb.get px py
    by_cases hgrid : px < 64 ∧ py < 32
    · obtain ⟨hpx, hpy⟩ := hgrid
      rw [u.get_drawn x y n hpx hpy, hdrawn px py hpx hpy, hsame, Bool.xor_assoc, Bool.xor_self, Bool.xor_false]
    · rw [Framebuffer.get_outside _ hgrid, Framebuffer.get_outside _ hgrid]
  · rintro ⟨px, py, hpx, hpy, hbit, hoff⟩
    refine (u.getV_regF_effect_drw x y n).trans (State.collisionFlag_drawn_eq_one hpx hpy ((hsame px py).trans hbit) ?_)
    rw [hdrawn px py hpx hpy, hoff, hbit]
    rfl
  · refine (u.getV_regF_effect_drw x y n).trans (State.collisionFlag_drawn_eq_zero fun px py hpx hpy hbit => ?_)
    have hbit' : s.spriteBit x y n px py = true := (hsame px py).symm.trans hbit
    rw [hdrawn px py hpx hpy, hbit', hnone px py hpx hpy hbit']
    rfl

/-- Settles O32: the read of the sprite reports the first address above memory, and the cycle takes that fault. -/
theorem drwOutsideMemoryFaults : Obligations.DrwOutsideMemoryFaults := by
  unfold Obligations.DrwOutsideMemoryFaults
  intro x y n s hn hout
  exact ⟨_, exec_drw_fault x y hn hout, s.faultTaken_takeFault _⟩

/-! ### CLS (R100) -/

/-- Settles O29: the effect of CLS is the cleared framebuffer and nothing else. -/
theorem clsTurnsEveryPixelOff : Obligations.ClsTurnsEveryPixelOff := by
  unfold Obligations.ClsTurnsEveryPixelOff
  intro s
  exact ⟨_, exec_cls s, s.completed_endCycle_effect .cls, State.ticked_endCycle rfl rfl, fun _ _ => rfl, rfl,
    ⟨rfl, fun _ => rfl⟩, fun _ => rfl, Framebuffer.get_clear, rfl⟩

end Sys2Proof.Machine

/-! SUPPORT. The control-flow family (spec/42_control_flow.md): the jumps, CALL and RET, and the skips. -/

namespace Sys2Proof.Machine

/-! ### Jumps (R111, R117) -/

/-- A cycle whose execute step jumps moves the pc to the target and changes nothing else but the tick. -/
theorem exec_jump_frame {i : Instr} {s : State} {w : Word} (h : exec i s = .next (s.beginCycle.jump w).endCycle) :
    ∃ t, exec i s = .next t ∧ s.OnlyVAndPc t ∧ s.KeepsV t ∧ t.pc = w :=
  ⟨_, h, State.onlyVAndPc_endCycle rfl, fun _ _ => rfl, rfl⟩

/-- An address as the target of a jump is the same number. -/
theorem setWidth_addr_toNat (nnn : Addr) : (nnn.setWidth 16).toNat = nnn.toNat :=
  BitVec.toNat_setWidth_of_le (by decide)

/-- The sum of an address and a byte fits a word: JP V0 does not wrap (R117, R24). -/
theorem setWidth_add_setWidth_toNat (nnn : Addr) (b : Byte) :
    (nnn.setWidth 16 + b.setWidth 16).toNat = nnn.toNat + b.toNat := by
  rw [setWidth_add_setWidth, BitVec.toNat_ofNat]
  exact Nat.mod_eq_of_lt (by omega)

/-- Settles O34: the word lies in the row of JP, whose cycle is a jump to the address. -/
theorem jpSetsPc : Obligations.JpSetsPc := by
  unfold Obligations.JpSetsPc
  intro nnn s
  obtain ⟨t, hexec, honly, hv, hpc⟩ := exec_jump_frame (exec_jp (s := s) nnn)
  exact ⟨(OpcodeRow.jp nnn).decode_ofNat (wordNNN_toNat 0x1#4 nnn).symm, t, hexec, honly, hv,
    hpc ▸ setWidth_addr_toNat nnn⟩

/-- Settles O35: the cycle of JP V0 is a jump to the sum, which fits 16 bits. -/
theorem jpV0AddsV0 : Obligations.JpV0AddsV0 := by
  unfold Obligations.JpV0AddsV0
  intro nnn s
  obtain ⟨t, hexec, honly, hv, hpc⟩ := exec_jump_frame (exec_jpV0 (s := s) nnn)
  exact ⟨t, hexec, honly, hv, hpc ▸ setWidth_add_setWidth_toNat nnn _⟩

/-! ### CALL and RET (R110, R112) -/

/-- Settles O36: the effect of CALL below the full stack is the push of the advanced pc and the jump. -/
theorem callPushesReturnAddress : Obligations.CallPushesReturnAddress := by
  unfold Obligations.CallPushesReturnAddress
  intro nnn s hsp
  refine ⟨_, exec_call nnn hsp, State.completed_endCycle rfl rfl rfl rfl, State.ticked_endCycle rfl rfl,
    fun _ _ => rfl, rfl, fun _ => rfl, fun _ _ => rfl, setWidth_addr_toNat nnn, rfl, fun k => ?_⟩
  show (s.stack.set s.sp.val (s.pc + 2#16))[k.val] = _
  rw [Vector.getElem_set]
  simp only [eq_comm, Fin.getElem_fin]

/-- Settles O37: the effect of RET above the empty stack is the jump to the entry below SP and the lowered SP. -/
theorem retPopsReturnAddress : Obligations.RetPopsReturnAddress := by
  unfold Obligations.RetPopsReturnAddress
  intro s hsp
  refine ⟨_, exec_ret hsp, State.completed_endCycle rfl rfl rfl rfl, State.ticked_endCycle rfl rfl,
    fun _ _ => rfl, rfl, fun _ => rfl, fun _ _ => rfl, Nat.sub_add_cancel hsp, fun k => ⟨rfl, fun hk => ?_⟩⟩
  show s.stack[s.sp.val - 1] = s.stack[k.val]
  simp only [← hk, Nat.add_sub_cancel]

/-- Settles O39: CALL leaves the advanced pc in the entry at the old SP, which is the entry that RET pops. -/
theorem retReturnsBehindCall : Obligations.RetReturnsBehindCall := by
  unfold Obligations.RetReturnsBehindCall
  intro nnn s hsp
  obtain ⟨t, hcall, -, -, -, -, -, -, -, htsp, hpushed⟩ := callPushesReturnAddress nnn s hsp
  refine ⟨t, hcall, fun u husp hstack => ?_⟩
  have hu : u.sp.val = s.sp.val + 1 := (congrArg Fin.val husp).trans htsp
  obtain ⟨r, hret, hcompleted, -, -, -, -, -, hrsp, hpopped⟩ := retPopsReturnAddress u (by omega)
  refine ⟨r, hret, hcompleted, ?_, Fin.ext (by omega)⟩
  calc r.pc = u.stack[s.sp.val] := (hpopped ⟨s.sp.val, hsp⟩).2 hu.symm
    _ = t.stack[s.sp.val] := hstack ⟨s.sp.val, hsp⟩
    _ = s.pc + 2#16 := (hpushed ⟨s.sp.val, hsp⟩).trans (if_pos rfl)

/-! ### Skips (R118) -/

/-- The pc a skip leaves, as a number. -/
theorem State.skipIf_beginCycle_pc_toNat (s : State) (c : Bool) :
    (s.beginCycle.skipIf c).pc.toNat = (s.pc.toNat + if c then 4 else 2) % 65536 := by
  rw [s.skipIf_beginCycle_pc Iff.rfl]
  cases c <;> exact BitVec.toNat_add ..

/-- A cycle whose execute step skips on a condition moves the pc and changes nothing else but the tick. -/
theorem exec_skip_frame {i : Instr} {s : State} {c d : Bool} (h : exec i s = .next (s.beginCycle.skipIf c).endCycle)
    (hcd : c = d) : ∃ t, exec i s = .next t ∧ s.OnlyVAndPc t ∧ s.KeepsV t ∧
      t.pc.toNat = (s.pc.toNat + if d then 4 else 2) % 65536 := by
  obtain ⟨t, hexec, honly, hv, hpc⟩ := exec_jump_frame h
  exact ⟨t, hexec, honly, hv, hcd ▸ hpc ▸ s.skipIf_beginCycle_pc_toNat c⟩

/-- Bytes are compared as numbers. -/
theorem beq_eq_decide_toNat_eq (a b : Byte) : (a == b) = decide (a.toNat = b.toNat) := by
  rw [beq_eq_decide, decide_eq_decide, BitVec.toNat_inj]

theorem bne_eq_decide_toNat_ne (a b : Byte) : (a != b) = decide (a.toNat ≠ b.toNat) := by
  rw [bne, beq_eq_decide_toNat_eq, decide_not]

/-- Settles O40: each of the six is a skip on its condition, the comparisons being of the bytes as numbers. -/
theorem skipsAddTwoToAdvancedPc : Obligations.SkipsAddTwoToAdvancedPc := by
  unfold Obligations.SkipsAddTwoToAdvancedPc
  intro x y kk s
  simp only [List.forall_mem_cons, List.not_mem_nil, false_implies, implies_true, and_true]
  refine ⟨⟨?_, ?_, ?_, ?_⟩, fun k hk => ⟨?_, ?_⟩⟩
  · exact exec_skip_frame (exec_seImm x kk) (beq_eq_decide_toNat_eq _ _)
  · exact exec_skip_frame (exec_sneImm x kk) (bne_eq_decide_toNat_ne _ _)
  · exact exec_skip_frame (exec_seReg x y) (beq_eq_decide_toNat_eq _ _)
  · exact exec_skip_frame (exec_sneReg x y) (bne_eq_decide_toNat_ne _ _)
  · exact exec_skip_frame (exec_skp hk) rfl
  · exact exec_skip_frame (exec_sknp hk) rfl

end Sys2Proof.Machine

/-! SUPPORT. The register and ALU family (spec/43_alu.md): the flags as numbers, and the cycles that write V[x] alone or
V[x] and then VF. -/

namespace Sys2Proof.Machine

/-! ### Results and flags as numbers (R130, R131) -/

/-- A difference of bytes wraps modulo 256 (R130). -/
theorem byte_sub_toNat (a b : Byte) : (a - b).toNat = (a.toNat + 256 - b.toNat) % 256 := by
  rw [BitVec.toNat_sub]
  omega

theorem byte_shiftRight_one_toNat (a : Byte) : (a >>> 1).toNat = a.toNat / 2 := by
  rw [BitVec.toNat_ushiftRight, Nat.shiftRight_one]

theorem byte_shiftLeft_one_toNat (a : Byte) : (a <<< 1).toNat = 2 * a.toNat % 256 := by
  rw [BitVec.toNat_shiftLeft, Nat.shiftLeft_eq, pow_one, Nat.mul_comm]

theorem carryFlag_toNat (a b : Byte) : (carryFlag a b).toNat = if 255 < a.toNat + b.toNat then 1 else 0 := by
  simp only [carryFlag, flagByte_toNat, decide_eq_true_eq]

theorem notBorrowFlag_toNat (a b : Byte) : (notBorrowFlag a b).toNat = if b.toNat ≤ a.toNat then 1 else 0 := by
  simp only [notBorrowFlag, flagByte_toNat, decide_eq_true_eq]

/-- The bit that SHR shifts out is the remainder by 2 (R140). -/
theorem shrFlag_toNat (a : Byte) : (shrFlag a).toNat = a.toNat % 2 := by
  rw [shrFlag, flagByte_toNat, BitVec.getLsbD, Nat.testBit_zero]
  simp only [decide_eq_true_eq]
  split <;> omega

/-- The bit that SHL shifts out is the quotient by 128 (R142). -/
theorem shlFlag_toNat (a : Byte) : (shlFlag a).toNat = a.toNat / 128 := by
  rw [shlFlag, flagByte_toNat, BitVec.getLsbD, Nat.testBit_eq_decide_div_mod_eq]
  simp only [decide_eq_true_eq]
  split <;> omega

/-! ### Cycles that write V[x] and no flag (R144) -/

/-- A cycle whose execute step writes one general register changes nothing else but the pc and the tick. -/
theorem exec_setV_frame {i : Instr} {s : State} {x : Reg} {b : Byte}
    (h : exec i s = .next (s.beginCycle.setV x b).endCycle) :
    ∃ t, exec i s = .next t ∧ s.OnlyVAndPc t ∧ t.pc = s.pc + 2#16 ∧ s.KeepsVBut t [x] ∧ t.getV x = b := by
  refine ⟨_, h, State.onlyVAndPc_endCycle rfl, rfl, fun r hr => ?_, ?_⟩
  · exact (State.getV_setV ..).trans (if_neg fun hrx => hr (List.mem_singleton.mpr hrx))
  · exact (State.getV_setV ..).trans (if_pos rfl)

/-- The same, with the byte written given as a number. -/
theorem exec_setV_frame_toNat {i : Instr} {s : State} {x : Reg} {b : Byte} {n : Nat}
    (h : exec i s = .next (s.beginCycle.setV x b).endCycle) (hb : b.toNat = n) :
    ∃ t, exec i s = .next t ∧ s.OnlyVAndPc t ∧ t.pc = s.pc + 2#16 ∧ s.KeepsVBut t [x] ∧ (t.getV x).toNat = n := by
  obtain ⟨t, hexec, honly, hpc, hkept, hx⟩ := exec_setV_frame h
  exact ⟨t, hexec, honly, hpc, hkept, hx ▸ hb⟩

/-- Settles O41: the word lies in the row of LD Vx,kk, whose cycle writes kk to V[x]. -/
theorem ldImmLoadsImmediate : Obligations.LdImmLoadsImmediate := by
  unfold Obligations.LdImmLoadsImmediate
  intro x kk s
  exact ⟨(OpcodeRow.ldImm x kk).decode_ofNat (wordXKK_toNat 0x6#4 x kk).symm, exec_setV_frame (exec_ldImm x kk)⟩

/-- Settles O42: each of the five is a write of V[x], whose result is the operation on the bytes as numbers. -/
theorem plainAluWritesOnlyVx : Obligations.PlainAluWritesOnlyVx := by
  unfold Obligations.PlainAluWritesOnlyVx
  intro x y kk s
  simp only [List.forall_mem_cons, List.not_mem_nil, false_implies, implies_true, and_true]
  refine ⟨?_, ?_, ?_, ?_, ?_⟩
  · exact exec_setV_frame_toNat (exec_addImm x kk) (BitVec.toNat_add ..)
  · exact exec_setV_frame_toNat (exec_ldReg x y) rfl
  · exact exec_setV_frame_toNat (exec_orReg x y) (BitVec.toNat_or ..)
  · exact exec_setV_frame_toNat (exec_andReg x y) (BitVec.toNat_and ..)
  · exact exec_setV_frame_toNat (exec_xorReg x y) (BitVec.toNat_xor ..)

/-- Settles O46: RND is a write of V[x] with the random byte of the cycle masked. -/
theorem rndMasksRandomByte : Obligations.RndMasksRandomByte := by
  unfold Obligations.RndMasksRandomByte
  intro x kk s
  exact exec_setV_frame_toNat (exec_rnd x kk) (BitVec.toNat_and ..)

/-! ### Cycles that write V[x] and then VF (R131) -/

/-- A cycle whose execute step writes a result to V[x] and then a flag to VF changes nothing else but the pc and the tick.
VF ends as the flag for every x, since the flag is written last. -/
theorem exec_setVFlag_frame {i : Instr} {s : State} {x : Reg} {b f : Byte} {n m : Nat}
    (h : exec i s = .next (s.beginCycle.setVFlag x b f).endCycle) (hb : b.toNat = n) (hf : f.toNat = m) :
    ∃ t, exec i s = .next t ∧ s.OnlyVAndPc t ∧ t.pc = s.pc + 2#16 ∧ s.KeepsVBut t [x, regF] ∧
      (x ≠ regF → (t.getV x).toNat = n) ∧ (t.getV regF).toNat = m := by
  have hv : ∀ r, (s.beginCycle.setVFlag x b f).endCycle.getV r =
      if r = regF then f else if r = x then b else s.getV r := fun r => State.getV_setVFlag ..
  refine ⟨_, h, State.onlyVAndPc_endCycle rfl, rfl, fun r hr => ?_, fun hx => ?_, ?_⟩
  · obtain ⟨hrx, hrF⟩ : r ≠ x ∧ r ≠ regF := by simpa using hr
    rw [hv, if_neg hrF, if_neg hrx]
  · rw [hv, if_neg hx, if_pos rfl, hb]
  · rw [hv, if_pos rfl, hf]

/-- Settles O43: ADD Vx,Vy writes the wrapped sum and then the carry. -/
theorem addRegSumsAndCarries : Obligations.AddRegSumsAndCarries := by
  unfold Obligations.AddRegSumsAndCarries
  intro x y s
  exact exec_setVFlag_frame (exec_addReg x y) (BitVec.toNat_add ..) (carryFlag_toNat ..)

/-- Settles O44: SUB and SUBN write their wrapped difference and then NOT-borrow, with the operands exchanged. -/
theorem subtractionsWriteNotBorrow : Obligations.SubtractionsWriteNotBorrow := by
  unfold Obligations.SubtractionsWriteNotBorrow
  intro x y s
  simp only [List.forall_mem_cons, List.not_mem_nil, false_implies, implies_true, and_true]
  constructor
  · exact exec_setVFlag_frame (exec_sub x y) (byte_sub_toNat ..) (notBorrowFlag_toNat ..)
  · exact exec_setVFlag_frame (exec_subn x y) (byte_sub_toNat ..) (notBorrowFlag_toNat ..)

/-- Settles O45: SHR and SHL write V[x] halved or doubled and then the bit that this loses. -/
theorem shiftsWriteShiftedOutBit : Obligations.ShiftsWriteShiftedOutBit := by
  unfold Obligations.ShiftsWriteShiftedOutBit
  intro x s
  simp only [List.forall_mem_cons, List.not_mem_nil, false_implies, implies_true, and_true]
  constructor
  · exact exec_setVFlag_frame (exec_shr x) (byte_shiftRight_one_toNat _) (shrFlag_toNat _)
  · exact exec_setVFlag_frame (exec_shl x) (byte_shiftLeft_one_toNat _) (shlFlag_toNat _)

end Sys2Proof.Machine

/-! SUPPORT. The index and memory-transfer family (spec/44_index_memory.md): the cycles that write I alone, the stores from
I on, and the register load. -/

namespace Sys2Proof.Machine

/-! ### Cycles that write I alone (R150, R151, R152) -/

/-- The sum of I and a register wraps modulo 65536 (R151, D18). -/
theorem add_setWidth_toNat (w : Word) (b : Byte) : (w + b.setWidth 16).toNat = (w.toNat + b.toNat) % 65536 := by
  rw [BitVec.toNat_add, BitVec.toNat_setWidth_of_le (by decide)]

/-- The glyph table lies within 16 bits: the address of a digit's glyph does not wrap (R52). -/
theorem glyphAddr_toNat {d : Nat} (h : d ≤ 15) : (glyphAddr d).toNat = 0x050 + 5 * d := by
  rw [glyphAddr, BitVec.toNat_ofNat]
  exact Nat.mod_eq_of_lt (by simp only [Config.glyphBase]; omega)

/-- A cycle whose execute step writes I changes nothing else but the pc and the tick. -/
theorem exec_setI_frame {i : Instr} {s : State} {w : Word} {n : Nat}
    (h : exec i s = .next (s.beginCycle.setI w).endCycle) (hw : w.toNat = n) :
    ∃ t, exec i s = .next t ∧ s.OnlyIAndPc t ∧ t.pc = s.pc + 2#16 ∧ t.i.toNat = n :=
  ⟨_, h, State.onlyIAndPc_endCycle rfl, rfl, hw⟩

/-- Settles O47: both are a write of I, with the address or the wrapped sum. -/
theorem indexLoadsAndAdds : Obligations.IndexLoadsAndAdds := by
  unfold Obligations.IndexLoadsAndAdds
  intro nnn x s
  simp only [List.forall_mem_cons, List.not_mem_nil, false_implies, implies_true, and_true]
  constructor
  · exact exec_setI_frame (exec_ldI nnn) (setWidth_addr_toNat nnn)
  · exact exec_setI_frame (exec_addIVx x) (add_setWidth_toNat ..)

/-- Settles O48: a digit up to 15 gives a write of I with its glyph's address, any other value the fault. -/
theorem ldFPointsAtGlyph : Obligations.LdFPointsAtGlyph := by
  unfold Obligations.LdFPointsAtGlyph
  intro x s
  constructor
  · intro hdigit
    exact exec_setI_frame (exec_ldFVx hdigit) (glyphAddr_toNat hdigit)
  · intro habove
    exact ⟨_, exec_ldFVx_fault (Nat.not_le.mpr habove), s.faultTaken_takeFault _⟩

/-! ### Stores from I on (R153, R154) -/

/-- The word of a group-F row as the sum that the statements build it from. -/
theorem wordXKK_groupF_toNat (x : Reg) (kk : Byte) :
    0xF000 + kk.toNat + 256 * x.toNat = (wordXKK 0xF#4 x kk).toNat := by
  simp only [wordXKK_toNat, BitVec.reduceToNat]
  omega

/-- The copied bytes are read back at their offsets. -/
theorem Memory.read_copy_offset (m : Memory) (a : Nat) {bs : List Byte} {k : Nat} (h : k < bs.length) :
    (m.copy a bs).read (a + k) = bs.getD k 0#8 := by
  rw [Memory.read_copy, if_pos (by omega), Nat.add_sub_cancel_left]

/-- A cycle whose execute step copies `n` bytes to memory from I on changes nothing else but the pc and the tick. -/
theorem exec_store_frame {i : Instr} {s : State} {bs : List Byte} {n : Nat}
    (h : exec i s = .next { s.beginCycle with mem := s.mem.copy s.i.toNat bs }.endCycle) (hlen : bs.length = n) :
    ∃ t, exec i s = .next t ∧ s.Completed t ∧ s.Ticked t ∧ s.KeepsV t ∧ t.i = s.i ∧ s.KeepsStack t ∧ s.KeepsFb t ∧
      t.pc = s.pc + 2#16 ∧ s.KeepsMemBut t s.indexAddr n ∧
      ∀ k, k < n → t.mem.read (s.indexAddr + k) = bs.getD k 0#8 := by
  refine ⟨_, h, State.completed_endCycle rfl rfl rfl rfl, State.ticked_endCycle rfl rfl, fun _ _ => rfl, rfl,
    ⟨rfl, fun _ => rfl⟩, fun _ _ => rfl, rfl, fun b hb => ?_, fun k hk => ?_⟩
  · exact (Memory.read_copy ..).trans (if_neg (hlen ▸ hb))
  · exact Memory.read_copy_offset s.mem s.i.toNat (hlen ▸ hk)

/-- The three digits of a byte are small enough for a byte each (R153). -/
theorem bcdDigits_toNat (b : Byte) : ((bcdDigits b).getD 0 0#8).toNat = b.toNat / 100 ∧
    ((bcdDigits b).getD 1 0#8).toNat = b.toNat / 10 % 10 ∧ ((bcdDigits b).getD 2 0#8).toNat = b.toNat % 10 := by
  refine ⟨?_, ?_, ?_⟩ <;> exact (BitVec.toNat_ofNat ..).trans (Nat.mod_eq_of_lt (by omega))

/-- Settles O49: the store of the three digits from I on, or the fault of the first address above memory. -/
theorem ldBStoresDecimalDigits : Obligations.LdBStoresDecimalDigits := by
  unfold Obligations.LdBStoresDecimalDigits
  intro x s
  refine ⟨(OpcodeRow.ldBVx x).decode_ofNat (wordXKK_groupF_toNat x 0x33#8), fun hin => ?_, fun hout => ?_⟩
  · obtain ⟨t, hexec, hdone, htick, hv, hi, hstack, hfb, hpc, hmem, hread⟩ :=
      exec_store_frame (n := 3) (exec_ldBVx (s := s) x (by omega)) rfl
    obtain ⟨hhundreds, htens, hones⟩ := bcdDigits_toNat (s.getV x)
    exact ⟨t, hexec, hdone, htick, hv, hi, hstack, hfb, hpc, hmem, hread 0 (by decide) ▸ hhundreds,
      hread 1 (by decide) ▸ htens, hread 2 (by decide) ▸ hones⟩
  · exact ⟨_, exec_ldBVx_fault x (by omega), s.faultTaken_takeFault _⟩

/-- Settles O50: the store of V0..Vx from I on, or the fault of the first address above memory. -/
theorem ldMemStoresRegisters : Obligations.LdMemStoresRegisters := by
  unfold Obligations.LdMemStoresRegisters
  intro x s
  constructor
  · intro hin
    obtain ⟨t, hexec, hdone, htick, hv, hi, hstack, hfb, hpc, hmem, hread⟩ :=
      exec_store_frame (exec_ldMemVx (s := s) (by omega)) (s.regsUpTo_length x)
    refine ⟨t, hexec, hdone, htick, hv, hi, hstack, hfb, hpc, hmem, fun r hr => ?_⟩
    exact (hread r.toNat (Nat.lt_succ_of_le hr)).trans (s.regsUpTo_getD hr)
  · intro hout
    exact ⟨_, exec_ldMemVx_fault (by omega), s.faultTaken_takeFault _⟩

/-! ### The register load (R155) -/

/-- LD Vx,[I] loads a byte for each register up to V[x]. -/
theorem State.loadedBytes_getElem?_of_le (s : State) {x r : Reg} (h : r ≤ x) :
    (s.loadedBytes x)[r.toNat]? = some (s.mem.read (s.i.toNat + r.toNat)) := by
  have hlt : r.toNat < x.toNat + 1 := Nat.lt_succ_of_le h
  rw [State.loadedBytes, List.getElem?_map, List.getElem?_range hlt, Option.map_some]

/-- The registers after the load: the bytes from I on up to V[x], the old values above. -/
theorem State.getV_setVs_loadedBytes (s : State) (x r : Reg) : (s.setVs (s.loadedBytes x)).getV r =
    if r ≤ x then s.mem.read (s.indexAddr + r.toNat) else s.getV r := by
  rw [State.getV_setVs]
  split
  next hle => rw [s.loadedBytes_getElem?_of_le hle, Option.getD_some, State.indexAddr]
  next hnot => rw [s.loadedBytes_getElem?_of_not_le hnot, Option.getD_none]

/-- Settles O51: the write of V0..Vx with the bytes from I on, or the fault of the first address above memory. -/
theorem ldVxMemLoadsRegisters : Obligations.LdVxMemLoadsRegisters := by
  unfold Obligations.LdVxMemLoadsRegisters
  intro x s
  refine ⟨(OpcodeRow.ldVxMem x).decode_ofNat (wordXKK_groupF_toNat x 0x65#8), fun hin => ?_, fun hout => ?_⟩
  · exact ⟨_, exec_ldVxMem (by omega), State.onlyVAndPc_endCycle rfl, rfl, s.beginCycle.getV_setVs_loadedBytes x⟩
  · exact ⟨_, exec_ldVxMem_fault (by omega), s.faultTaken_takeFault _⟩

/-! ### Dump and load (W7) -/

/-- Settles O52: the load reads the bytes that the dump stored, since neither changes I. -/
theorem dumpThenLoadRestoresRegisters : Obligations.DumpThenLoadRestoresRegisters := by
  unfold Obligations.DumpThenLoadRestoresRegisters
  intro x s hin
  obtain ⟨t, hdump, -, -, -, hti, -, -, -, -, hstored⟩ := (ldMemStoresRegisters x s).1 hin
  refine ⟨t, hdump, fun u hui hsame => ?_⟩
  have hi : u.i = s.i := hui.trans hti
  obtain ⟨r, hload, honly, -, hloaded⟩ := (ldVxMemLoadsRegisters x u).2.1 (hi ▸ hin)
  obtain ⟨-, -, hri, -⟩ := honly
  refine ⟨r, hload, hri.trans hi, fun q hq => ?_⟩
  calc r.getV q = u.mem.read (u.indexAddr + q.toNat) := (hloaded q).trans (if_pos hq)
    _ = u.mem.read (s.i.toNat + q.toNat) := by rw [State.indexAddr, hi]
    _ = t.mem.read (s.i.toNat + q.toNat) := hsame q.toNat hq
    _ = s.getV q := hstored q hq

end Sys2Proof.Machine

/-! SUPPORT. The keypad and timer family (spec/45_keypad_timers.md): the two key skips, the wait for a key, and the loads
from and to the timers. -/

namespace Sys2Proof.Machine

/-! ### Key skips (R170, R171) -/

/-- A cycle whose execute step skips, with the pc it leaves as a word (R118). -/
theorem exec_skip_frame_pc {i : Instr} {s : State} {c : Bool}
    (h : exec i s = .next (s.beginCycle.skipIf c).endCycle) : ∃ t, exec i s = .next t ∧ s.OnlyVAndPc t ∧ s.KeepsV t ∧
      t.pc = if c then s.pc + 4#16 else s.pc + 2#16 := by
  obtain ⟨t, hexec, honly, hv, hpc⟩ := exec_jump_frame h
  exact ⟨t, hexec, honly, hv, hpc.trans (s.skipIf_beginCycle_pc Iff.rfl)⟩

/-- Settles O54: below 16 the two are skips on one key of the snapshot and on its negation, above 15 both fault. -/
theorem keySkipsExcludeEachOther : Obligations.KeySkipsExcludeEachOther := by
  unfold Obligations.KeySkipsExcludeEachOther
  intro x s
  constructor
  · intro hkey
    obtain ⟨k, hk⟩ : ∃ k : Fin 16, (s.getV x).toNat = k.val := ⟨⟨_, Nat.lt_succ_of_le hkey⟩, rfl⟩
    obtain ⟨t, hskp, honly, hv, hpc⟩ := exec_skip_frame_pc (exec_skp hk)
    obtain ⟨u, hsknp, honly', hv', hpc'⟩ := exec_skip_frame_pc (exec_sknp hk)
    refine ⟨t, u, hskp, hsknp, honly, honly', hv, hv', ?_⟩
    cases hpressed : s.hostInput.keys[k] <;> rw [hpressed] at hpc hpc'
    · exact .inr ⟨hpc, hpc'⟩
    · exact .inl ⟨hpc, hpc'⟩
  · intro habove
    simp only [List.forall_mem_cons, List.not_mem_nil, false_implies, implies_true, and_true]
    exact ⟨⟨_, exec_skp_fault habove, s.faultTaken_takeFault _⟩, ⟨_, exec_sknp_fault habove, s.faultTaken_takeFault _⟩⟩

/-! ### The wait for a key (R173) -/

/-- The number of a key fits a register. -/
theorem ofNat_key_toNat (k : Fin 16) : (BitVec.ofNat 8 k.val).toNat = k.val :=
  (BitVec.toNat_ofNat ..).trans (Nat.mod_eq_of_lt (by omega))

/-- Settles O55: the scan of the snapshot finds the lowest pressed key, which is written to V[x], or none, and then the
cycle is a jump to its own address. -/
theorem ldKWaitsForLowestKey : Obligations.LdKWaitsForLowestKey := by
  unfold Obligations.LdKWaitsForLowestKey
  intro x s
  constructor
  · intro k hpressed hlow
    exact exec_setV_frame_toNat (exec_ldVxK_pressed x (s.beginCycle.pressedKey_eq_some hpressed hlow)) (ofNat_key_toNat k)
  · intro hreleased
    obtain ⟨t, hexec, honly, hv, hpc⟩ :=
      exec_jump_frame (exec_ldVxK_waiting x (s.beginCycle.pressedKey_eq_none hreleased))
    exact ⟨t, hexec, honly, hpc, hv⟩

/-! ### Timer loads (R172, R174, R175, R176) -/

/-- A cycle whose execute step leaves the timers at `d` and `e` and changes nothing else ends with both one tick lower. -/
theorem exec_setTimers_frame {i : Instr} {s : State} {d e : Byte}
    (h : exec i s = .next { s.beginCycle with dt := d, st := e }.endCycle) :
    ∃ t, exec i s = .next t ∧ s.Completed t ∧ s.KeepsV t ∧ t.i = s.i ∧ s.KeepsStack t ∧ s.KeepsMem t ∧ s.KeepsFb t ∧
      t.pc = s.pc + 2#16 ∧ t.dt.toNat = d.toNat - 1 ∧ t.st.toNat = e.toNat - 1 :=
  ⟨_, h, State.completed_endCycle rfl rfl rfl rfl, fun _ _ => rfl, rfl, ⟨rfl, fun _ => rfl⟩, fun _ => rfl,
    fun _ _ => rfl, rfl, tickTimer_toNat d, tickTimer_toNat e⟩

/-- Settles O56: the read is a write of V[x] with the timer as it was, and each timer load leaves the other timer to its
tick. -/
theorem timerLoadsAroundTick : Obligations.TimerLoadsAroundTick := by
  unfold Obligations.TimerLoadsAroundTick
  intro x s
  refine ⟨exec_setV_frame (exec_ldVxDt x), exec_setTimers_frame (exec_ldDtVx x), ?_⟩
  obtain ⟨t, hexec, hdone, hv, hi, hstack, hmem, hfb, hpc, hdt, hst⟩ := exec_setTimers_frame (exec_ldStVx (s := s) x)
  exact ⟨t, hexec, hdone, hv, hi, hstack, hmem, hfb, hpc, hst, hdt⟩

end Sys2Proof.Machine

/-! SUPPORT. The exception family (spec/60_exceptions.md): the record that a cycle leaves, and the conditions of R200's
table. -/

namespace Sys2Proof.Machine

/-! ### The record a cycle leaves (R201) -/

/-- A record that `exec` leaves where none was before has a cause whose condition holds, and the pc and opcode from before
the cycle. -/
theorem exec_fault_record {i : Instr} {s t : State} {r : FaultRecord} (hfault : s.fault = none)
    (hexec : exec i s = .next t) (hrec : t.fault = some r) : s.CauseFits i r.cause ∧ r.fpc = s.pc ∧ r.fop = s.op := by
  rcases exec_next_cases hexec with ⟨-, rfl⟩ | ⟨c, hc, rfl⟩
  · rw [State.endCycle_fault, State.effect_fault, hfault] at hrec
    cases hrec
  · obtain rfl := Option.some.inj hrec
    exact ⟨hc, rfl, rfl⟩

/-- A fetch fails only above 0xFFE, and reports the first address above memory (R91). -/
theorem State.fetch_eq_error {s : State} {c : Cause} (h : s.fetch = .error c) :
    0xFFE < s.pc.toNat ∧ c = .memoryOutOfBounds (max s.pc.toNat 0x1000) := by
  by_cases hpc : 0xFFE < s.pc.toNat
  · exact ⟨hpc, Except.error.inj (h.symm.trans (s.fetch_error hpc))⟩
  · rw [s.fetch_ok (by omega)] at h
    cases h

/-- A record that a step leaves is that of the failed fetch, with no opcode, or that of the fetched instruction, with its
opcode. -/
theorem step_fault_record {s t : State} {r : FaultRecord} (hstep : step s = .next t) (hrec : t.fault = some r) :
    (s.fetch = .error r.cause ∧ r.fop = none) ∨
    ∃ w, s.fetch = .ok w ∧ r.fop = some w ∧ s.CauseFits (decode w) r.cause := by
  cases hfault : s.fault with
  | some q => rw [step_faulted hfault] at hstep; cases hstep
  | none =>
    cases hfetch : s.fetch with
    | error c =>
      obtain rfl := Host.Outcome.next.inj ((step_fetch_error hfault hfetch).symm.trans hstep)
      obtain rfl := Option.some.inj hrec
      exact .inl ⟨rfl, rfl⟩
    | ok w =>
      rw [step_decoded hfault hfetch] at hstep
      obtain ⟨hcause, -, hfop⟩ := exec_fault_record ((s.latch_fault w).trans hfault) hstep hrec
      exact .inr ⟨w, rfl, hfop, (State.causeFits_congr rfl rfl rfl _ _).1 hcause⟩

/-! ### The conditions (R200) -/

/-- Settles O10: `exec` takes the fault of a cause that fits, which is the only one that does (R203), and the record it
leaves names a cause that fits. -/
theorem faultsExactlyOnListedConditions : Obligations.FaultsExactlyOnListedConditions := by
  unfold Obligations.FaultsExactlyOnListedConditions
  intro i s c hfault
  constructor
  · intro hc
    rcases exec_cases i s with ⟨hnone, -⟩ | ⟨d, hd, hexec⟩
    · exact absurd hc (hnone c)
    · obtain rfl := State.causeFits_unique hd hc
      exact ⟨_, hexec, s.faultTaken_takeFault d⟩
  · rintro ⟨t, hexec, hrec, -⟩
    exact (exec_fault_record hfault hexec hrec).1

/-- The four instructions whose access from I on can reach above memory, each with the I where it does (R54, R55). -/
theorem State.CauseFits.memory_cases {s : State} {i : Instr} {a : Nat} (h : s.CauseFits i (.memoryOutOfBounds a)) :
    (∃ x y n, i = .drw x y n ∧ n.toNat ≠ 0 ∧ 0x1000 < s.i.toNat + n.toNat) ∨
    (∃ x, i = .ldBVx x ∧ 0xFFD < s.i.toNat) ∨
    (∃ x, (i = .ldMemVx x ∨ i = .ldVxMem x) ∧ 0xFFF < s.i.toNat + x.toNat) := by
  obtain ⟨rfl, hlen⟩ := h
  have hsome : i.readLen + i.storeLen ≠ 0 := by omega
  have hreach : 0x1000 < s.i.toNat + (i.readLen + i.storeLen) := by omega
  cases i with
  | drw x y n => exact .inl ⟨x, y, n, rfl, hsome, hreach⟩
  | ldBVx x => exact .inr (.inl ⟨x, rfl, by simp only [Instr.readLen, Instr.storeLen] at hreach; omega⟩)
  | ldMemVx x => exact .inr (.inr ⟨x, .inl rfl, by simp only [Instr.readLen, Instr.storeLen] at hreach; omega⟩)
  | ldVxMem x => exact .inr (.inr ⟨x, .inr rfl, by simp only [Instr.readLen, Instr.storeLen] at hreach; omega⟩)
  | _ => exact absurd rfl hsome

/-- Settles O57: a record without an opcode is the failed fetch's, and each cause that fits an instruction is a row of the
table. -/
theorem faultRecordsFollowTheTable : Obligations.FaultRecordsFollowTheTable := by
  unfold Obligations.FaultRecordsFollowTheTable
  constructor
  · rintro s t ⟨c, fpc, fop⟩ hstep hrec hfop
    rcases step_fault_record hstep hrec with ⟨hfetch, -⟩ | ⟨w, -, hw, -⟩
    · obtain ⟨hpc, rfl⟩ := State.fetch_eq_error hfetch
      exact ⟨rfl, hpc, rfl⟩
    · exact absurd (hw.symm.trans hfop) nofun
  · rintro i s t ⟨c, fpc, fop⟩ hfault hexec hrec
    obtain ⟨hcause, -⟩ := exec_fault_record hfault hexec hrec
    cases c with
    | stackOverflow => exact .inl ⟨rfl, rfl, hcause⟩
    | stackUnderflow => exact .inr (.inl ⟨rfl, rfl, hcause⟩)
    | invalidDigit d =>
      obtain ⟨x, hi, rfl, hd⟩ := hcause
      exact .inr (.inr (.inl ⟨rfl, x, hi, hd, rfl⟩))
    | memoryOutOfBounds a =>
      exact .inr (.inr (.inr (.inl ⟨rfl, congrArg some hcause.1, hcause.memory_cases⟩)))
    | keyIndexOutOfRange d =>
      obtain ⟨x, hi, rfl, hd⟩ := hcause
      exact .inr (.inr (.inr (.inr ⟨rfl, x, hi, hd, rfl⟩)))

end Sys2Proof.Machine

/-! SUPPORT. The reset and hazard family (spec/70_reset_and_hazards.md): the state after reset, the zero word, and the
self-jump. -/

namespace Sys2Proof.Machine

/-! ### The self-jump (R241) -/

/-- Standing at a self-jump depends on the fault state, the pc and memory alone. -/
theorem State.AtSelfJump.congr {s t : State} (h : s.AtSelfJump) (hfault : t.fault = s.fault) (hpc : t.pc = s.pc)
    (hmem : t.mem = s.mem) : t.AtSelfJump := by
  obtain ⟨hnone, w, nnn, hfetch, hdecode, haddr⟩ := h
  exact ⟨hfault.trans hnone, w, nnn, (State.fetch_congr hpc hmem).trans hfetch, hdecode, hpc ▸ haddr⟩

/-- A step at a self-jump is a cycle whose execute step jumps to the pc it started from (R111). -/
theorem State.AtSelfJump.step_eq {s : State} (h : s.AtSelfJump) :
    ∃ w, step s = .next ((s.latch w).beginCycle.jump s.pc).endCycle := by
  obtain ⟨hfault, w, nnn, hfetch, hdecode, haddr⟩ := h
  have htarget : nnn.setWidth 16 = s.pc := BitVec.eq_of_toNat_eq ((setWidth_addr_toNat nnn).trans haddr)
  exact ⟨w, by rw [step_decoded hfault hfetch, hdecode, exec_jp, htarget]⟩

/-- Settles O17: the jump goes back to the pc, and neither it nor the tick changes memory or the fault state. -/
theorem selfJumpStays : Obligations.SelfJumpStays := by
  unfold Obligations.SelfJumpStays
  intro s hself
  obtain ⟨w, hstep⟩ := hself.step_eq
  exact ⟨_, hstep, hself.congr rfl rfl rfl, State.onlyVAndPc_endCycle rfl, fun _ _ => rfl, rfl⟩

/-! ### Reset (R230, R231) -/

/-- Below the glyph table the reset contents are 0 (R230). -/
theorem Memory.blank_below_font {a : Nat} (h : a < 0x050) : Memory.blank a = 0#8 := if_neg (Nat.not_le.2 h)

/-- The reset contents hold the glyph table from 0x050 on (R51, R52). -/
theorem Memory.blank_font {k : Nat} (h : k < 80) : some (Memory.blank (0x050 + k)) = Config.font[k]? := by
  have hk : k < Config.font.length := h
  rw [Memory.blank, if_pos (Nat.le_add_right ..), Nat.add_sub_cancel_left, List.getElem?_eq_getElem hk,
    Option.getD_some]

/-- The reset at creation is a host's reset with no inputs to come (D15). -/
theorem State.hostReset_reset : State.reset.hostReset = State.reset := rfl

/-- Settles O11: both resets are a host's reset, whose general registers, stack, pixels and keys are constant vectors
and whose memory lists no cell. -/
theorem resetLeavesListedValues : Obligations.ResetLeavesListedValues := by
  unfold Obligations.ResetLeavesListedValues
  intro u s hs
  obtain ⟨q, rfl⟩ : ∃ q : State, s = q.hostReset := by
    rcases List.mem_pair.1 hs with rfl | rfl
    · exact ⟨State.reset, State.hostReset_reset.symm⟩
    · exact ⟨u, rfl⟩
  refine ⟨fun r => Vector.getElem_replicate _, rfl, rfl, fun k => Vector.getElem_replicate _, rfl, rfl, rfl,
    Framebuffer.get_clear, fun k => Vector.getElem_replicate _, rfl, ?_, fun k => Memory.blank_font k.isLt⟩
  rintro a (hbelow | habove)
  · exact Memory.blank_below_font hbelow
  · exact Memory.blank_above_font habove

/-- Settles O12: no cell is listed, no opcode or fault is recorded, and the pc and the stack hold reset's values. -/
theorem resetSatisfiesInvariant : Obligations.ResetSatisfiesInvariant := by
  obtain ⟨-, -, hpc, hstack, -⟩ := resetLeavesListedValues State.reset State.reset List.mem_cons_self
  refine ⟨State.reset_mem_wf, rfl, ?_, fun k => ?_, nofun⟩
  · rw [hpc]; decide
  · rw [hstack k]; decide

/-! ### The zero word (R233) -/

/-- Settles O16: the two zero bytes are the word of CLS, whose cycle turns every pixel off. -/
theorem zeroedMemoryClearsScreen : Obligations.ZeroedMemoryClearsScreen := by
  unfold Obligations.ZeroedMemoryClearsScreen
  intro s hfault hpc hhi hlo
  have hstep : step s = exec .cls { s with op := some 0#16 } :=
    stepRunsDecodedInstruction s 0#16 hfault hpc (by rw [hhi, hlo]; rfl)
  obtain ⟨t, hexec, hframe⟩ := clsTurnsEveryPixelOff { s with op := some 0#16 }
  exact ⟨t, hstep.trans hexec, hframe⟩

end Sys2Proof.Machine
